-- ==== Sys2Proof/Word.lean ====
section
/-! DEFINITION. The two widths of the machine (rule R2: XLEN = 16, CELL = 8 of R6). -/

namespace Sys2Proof

/-- A memory cell, an opcode or a register-index operand (R6 `CELL`, R81 `REG8`). -/
abbrev Byte := BitVec 8

/-- A register, an address, a literal or an ALU result (R6 `XLEN`). All values are unsigned (R7). -/
abbrev Word := BitVec 16

end Sys2Proof
end

