-- ==== Sys2Proof/Config.lean ====
section
/-! DEFINITION. The launch parameters of rule R6: what the host fixes when it launches the machine and no step
changes (R38). Their defaults stand in Decode.lean. MEMSIZE, which LOAD sets too, is a field of State (R31). Also the
three names errors have (R210), and the model's only free values: which of them a refused command carries. -/

namespace Sys2Proof

/-- `OPC` (R6, R86): the opcode byte of each of the nine instructions, one configuration record. -/
structure Opcodes where
  movLitReg : Byte
  movRegReg : Byte
  movRegMem : Byte
  movMemReg : Byte
  addRegReg : Byte
  jmpNotEq  : Byte
  pshLit    : Byte
  pshReg    : Byte
  pop       : Byte
  deriving DecidableEq, Repr

/-- The nine values in the order of R85's table. -/
def Opcodes.toList (o : Opcodes) : List Byte :=
  [o.movLitReg, o.movRegReg, o.movRegMem, o.movMemReg, o.addRegReg, o.jmpNotEq, o.pshLit, o.pshReg, o.pop]

/-- The one constraint on `OPC`: the nine values are pairwise distinct (R6, R86, decision D1). -/
abbrev Opcodes.Distinct (o : Opcodes) : Prop := o.toList.Nodup

/-- The launch parameters. DESIGN CHOICE (log entry 1, safe): State carries this record, so that the one `step` covers
every configuration; R119 writes the same thing as `step : Config × State -> ...`. -/
structure Config where
  /-- The opcode assignment (R86). -/
  opc : Opcodes
  /-- `PERMISSIVE_ILLEGAL` (R89): `false` is strict, `true` makes an undefined opcode a one-byte no-op. -/
  permissiveIllegal : Bool
  /-- `HALT_SENTINEL` (R117): the driver's byte; the engine never reads it (R38). -/
  haltSentinel : Byte
  deriving DecidableEq, Repr

/-- A launch record the spec allows: distinct opcodes (R86) and a sentinel that is no defined opcode (R90, D13). -/
abbrev Config.WellFormed (c : Config) : Prop := c.opc.Distinct ∧ c.haltSentinel ∉ c.opc.toList

/-- The three names a fault of a step or an error of a host command has (R210, R226). Their numeric codes stand in
Machine/Ops.lean. -/
inductive FaultName where
  | unknownRegister | outOfBounds | illegalOpcode
  deriving DecidableEq, Repr, Inhabited

/-- Which of the three names the error of a refused `RESET(size)` has. R226 says that it has one of them and not which:
a free value of the size (DEDUCED, log entry 17, safe). -/
opaque Config.refusedResetName : Nat → FaultName

/-- Which of the three names the error of a LOAD refused for its length has: a free value of the length, as for RESET
(DEDUCED, log entry 17, safe). -/
opaque Config.refusedLoadName : Nat → FaultName

end Sys2Proof
end

