-- ==== Sys2Proof/Syntax.lean ====
section
/-! DEFINITION. The instructions: one constructor per row of the opcode table (R85), and the operand formats of R82. -/

namespace Sys2Proof

/-- The nine instructions with their operands IN FETCH ORDER (R85). A register operand is the whole `REG8` byte, so
every value a program can hold is an instruction; indices 12 to 255 fault when it executes (R88, R96). -/
inductive Instr where
  /-- MOV_LIT_REG (R130). -/
  | movLitReg (lit : Word) (dst : Byte)
  /-- MOV_REG_REG (R131). -/
  | movRegReg (src dst : Byte)
  /-- MOV_REG_MEM (R132). -/
  | movRegMem (src : Byte) (addr : Word)
  /-- MOV_MEM_REG (R133). -/
  | movMemReg (addr : Word) (dst : Byte)
  /-- ADD_REG_REG (R150): the operands the document calls r1 and r2. -/
  | addRegReg (p q : Byte)
  /-- JMP_NOT_EQ (R160). -/
  | jmpNotEq (lit addr : Word)
  /-- PSH_LIT (R172). -/
  | pshLit (lit : Word)
  /-- PSH_REG (R173). -/
  | pshReg (src : Byte)
  /-- POP (R174). -/
  | pop (dst : Byte)
  deriving DecidableEq, Repr

/-- The nine names of R85: what an opcode byte selects. -/
inductive Mnemonic where
  | movLitReg | movRegReg | movRegMem | movMemReg | addRegReg | jmpNotEq | pshLit | pshReg | pop
  deriving DecidableEq, Repr

/-- Which of the nine an instruction is. -/
def Instr.mnemonic : Instr → Mnemonic
  | .movLitReg _ _ => .movLitReg
  | .movRegReg _ _ => .movRegReg
  | .movRegMem _ _ => .movRegMem
  | .movMemReg _ _ => .movMemReg
  | .addRegReg _ _ => .addRegReg
  | .jmpNotEq _ _ => .jmpNotEq
  | .pshLit _ => .pshLit
  | .pshReg _ => .pshReg
  | .pop _ => .pop

/-- The three kinds of operand field (R81). -/
inductive OperandKind where
  /-- A register index, one byte. -/
  | reg8
  /-- A literal, two bytes, high byte first. -/
  | lit16
  /-- An absolute address, two bytes, high byte first. -/
  | addr16
  deriving DecidableEq, Repr

/-- The size in bytes of an operand field (R81). -/
def OperandKind.size : OperandKind → Nat
  | .reg8 => 1
  | .lit16 => 2
  | .addr16 => 2

/-- The operand sequence of each instruction, its format (R82). -/
def Mnemonic.format : Mnemonic → List OperandKind
  | .movLitReg => [.lit16, .reg8]
  | .movRegReg => [.reg8, .reg8]
  | .movRegMem => [.reg8, .addr16]
  | .movMemReg => [.addr16, .reg8]
  | .addRegReg => [.reg8, .reg8]
  | .jmpNotEq => [.lit16, .addr16]
  | .pshLit => [.lit16]
  | .pshReg => [.reg8]
  | .pop => [.reg8]

/-- The length in bytes, the opcode byte included: fixed by the opcode alone (R84). -/
def Mnemonic.length (m : Mnemonic) : Nat := 1 + (m.format.map OperandKind.size).sum

/-- The length of an instruction (R82, R85). -/
def Instr.length (i : Instr) : Nat := i.mnemonic.length

/-- The register operands (`REG8` bytes) of an instruction, in fetch order (R114 phase 2). -/
def Instr.regOperands : Instr → List Byte
  | .movLitReg _ d => [d]
  | .movRegReg s d => [s, d]
  | .movRegMem s _ => [s]
  | .movMemReg _ d => [d]
  | .addRegReg p q => [p, q]
  | .jmpNotEq _ _ => []
  | .pshLit _ => []
  | .pshReg r => [r]
  | .pop d => [d]

end Sys2Proof
end

