-- ==== Sys2Proof/WellFormed.lean ====
section
/-! DEFINITION. What makes an instruction well formed: every register operand names one of the twelve registers (R88,
R91: these are the only operand values that are not accepted). An ill-formed instruction still decodes and still
executes: it raises UnknownRegister (R96, R210), so no meaning and no decoder consults this check. -/

namespace Sys2Proof

/-- The byte names a register: index 0 to 11 (R21, R88). -/
def namesRegister (i : Byte) : Bool := i.toNat ≤ 11

/-- Every register operand of the instruction names a register (R88). -/
def Instr.wellFormed (i : Instr) : Bool := i.regOperands.all namesRegister

end Sys2Proof
end

