-- ==== Sys2Proof/Decode.lean ====
section
/-! DEFINITION. The encoding (R80 to R97): the opcode assignment, byte order, the decoder, and after it the encoder.
The decoder is written once, over any source of operand bytes: the machine runs it on its fetch primitives (R110,
R111, in Machine/Fetch.lean), `decode` runs it on a list of bytes. -/

namespace Sys2Proof

/-- The spec's opcode values (R85, decision D1). -/
def Opcodes.standard : Opcodes where
  movLitReg := 0x10
  movRegReg := 0x11
  movRegMem := 0x12
  movMemReg := 0x13
  addRegReg := 0x14
  jmpNotEq  := 0x15
  pshLit    := 0x17
  pshReg    := 0x18
  pop       := 0x1A

/-- The default launch parameters (R6): the values of R85, strict, sentinel 0xFE. -/
def Config.standard : Config where
  opc := Opcodes.standard
  permissiveIllegal := false
  haltSentinel := 0xFE

/-- The high byte of a 16-bit value, `v[15:8]` (R7). -/
def hiByte (v : Word) : Byte := v.extractLsb' 8 8

/-- The low byte of a 16-bit value, `v[7:0]` (R7). -/
def loByte (v : Word) : Byte := v.extractLsb' 0 8

/-- The 16-bit value `{hi, lo}`, that is `(high << 8) | low`: everything wider than a byte is big-endian (R7, R58). -/
def joinBytes (hi lo : Byte) : Word := hi ++ lo

/-- The opcode byte of an instruction name under an assignment. -/
def Opcodes.value (o : Opcodes) : Mnemonic → Byte
  | .movLitReg => o.movLitReg
  | .movRegReg => o.movRegReg
  | .movRegMem => o.movRegMem
  | .movMemReg => o.movMemReg
  | .addRegReg => o.addRegReg
  | .jmpNotEq => o.jmpNotEq
  | .pshLit => o.pshLit
  | .pshReg => o.pshReg
  | .pop => o.pop

/-- The nine names in the order of R85's table. -/
def allMnemonics : List Mnemonic :=
  [.movLitReg, .movRegReg, .movRegMem, .movMemReg, .addRegReg, .jmpNotEq, .pshLit, .pshReg, .pop]

/-- The instruction an opcode byte selects, by equality on all eight bits (R85); `none` is an undefined opcode (R89).
Where two values of an assignment were equal, which R86 forbids, the first in table order would be selected
(DESIGN CHOICE, log entry 13, safe). -/
def Opcodes.select (o : Opcodes) (b : Byte) : Option Mnemonic :=
  allMnemonics.find? fun m => o.value m == b

/-- A place operand bytes are taken from, one operand at a time (R80: operands "are consumed via `fetch()`/`fetch16()`
calls made by that operation, in the order listed"). -/
structure OperandSource (σ ε : Type) where
  /-- Take a `REG8` operand. -/
  byte : σ → Except ε (Byte × σ)
  /-- Take a `LIT16` or `ADDR16` operand, high byte first. -/
  word : σ → Except ε (Word × σ)

/-- Take all operands of the selected instruction in fetch order (R82, R85); the first that cannot be taken ends it. -/
def takeOperands {σ ε : Type} (src : OperandSource σ ε) (m : Mnemonic) (s : σ) : Except ε (Instr × σ) :=
  match m with
  | .movLitReg => do
    let (lit, s) ← src.word s
    let (dst, s) ← src.byte s
    return (.movLitReg lit dst, s)
  | .movRegReg => do
    let (r, s) ← src.byte s
    let (dst, s) ← src.byte s
    return (.movRegReg r dst, s)
  | .movRegMem => do
    let (r, s) ← src.byte s
    let (addr, s) ← src.word s
    return (.movRegMem r addr, s)
  | .movMemReg => do
    let (addr, s) ← src.word s
    let (dst, s) ← src.byte s
    return (.movMemReg addr dst, s)
  | .addRegReg => do
    let (p, s) ← src.byte s
    let (q, s) ← src.byte s
    return (.addRegReg p q, s)
  | .jmpNotEq => do
    let (lit, s) ← src.word s
    let (addr, s) ← src.word s
    return (.jmpNotEq lit addr, s)
  | .pshLit => do
    let (lit, s) ← src.word s
    return (.pshLit lit, s)
  | .pshReg => do
    let (r, s) ← src.byte s
    return (.pshReg r, s)
  | .pop => do
    let (dst, s) ← src.byte s
    return (.pop dst, s)

/-- Why a list of bytes holds no instruction (R96: decode fails only on an undefined opcode or by running out). -/
inductive DecodeError where
  /-- The first byte is none of the nine opcodes (R89). -/
  | illegalOpcode (opcode : Byte)
  /-- The bytes end inside the instruction (R93). -/
  | truncated
  deriving DecidableEq, Repr

/-- One byte off a list. -/
def listByte : List Byte → Except DecodeError (Byte × List Byte)
  | b :: rest => .ok (b, rest)
  | [] => .error .truncated

/-- Two bytes off a list, high byte first (R87). -/
def listWord : List Byte → Except DecodeError (Word × List Byte)
  | hi :: lo :: rest => .ok (joinBytes hi lo, rest)
  | _ => .error .truncated

/-- A list of bytes as a source of operands. -/
def listSource : OperandSource (List Byte) DecodeError where
  byte := listByte
  word := listWord

/-- The decoder: the first instruction of a list of bytes, and the bytes after it (R84, R96). -/
def decode (o : Opcodes) : List Byte → Except DecodeError (Instr × List Byte)
  | [] => .error .truncated
  | b :: rest =>
    match o.select b with
    | none => .error (.illegalOpcode b)
    | some m => takeOperands listSource m rest

/-- The bytes of an instruction word numbered as the opcode table numbers them: byte `k` is bits `8k+7 .. 8k`. Bits
from `nbits` up are zero, up to the longest instruction (five bytes, R80). -/
def tableBytes (nbits w : Nat) : List Byte :=
  [0, 1, 2, 3, 4].map fun k => if 8 * k < nbits then BitVec.ofNat 8 (w >>> (8 * k)) else 0

/-- The instruction the decoder reads from a word of the opcode table, under the spec's opcode values (R85). -/
def decodeTableWord (nbits w : Nat) : Option Instr :=
  match decode Opcodes.standard (tableBytes nbits w) with
  | .ok (i, _) => some i
  | .error _ => none

/-- The two bytes of a `LIT16` or `ADDR16`: high byte then low byte (R96). -/
def wordBytes (v : Word) : List Byte := [hiByte v, loByte v]

/-- The operand bytes of an instruction, in fetch order (R82, R96). -/
def encodeOperands : Instr → List Byte
  | .movLitReg lit d => wordBytes lit ++ [d]
  | .movRegReg s d => [s, d]
  | .movRegMem s addr => s :: wordBytes addr
  | .movMemReg addr d => wordBytes addr ++ [d]
  | .addRegReg p q => [p, q]
  | .jmpNotEq lit addr => wordBytes lit ++ wordBytes addr
  | .pshLit lit => wordBytes lit
  | .pshReg r => [r]
  | .pop d => [d]

/-- The encoder: the opcode byte, then each operand in fetch order (R96). -/
def encode (o : Opcodes) (i : Instr) : List Byte := o.value i.mnemonic :: encodeOperands i

end Sys2Proof
end

