-- ==== Sys2Proof/Machine/State.lean ====
section
/-! DEFINITION. The complete state of the machine (10_state.md): twelve registers (R20), the byte memory (R30), its
bound MEMSIZE (R31), the fault latch (R32) and the launch parameters (R6, R38). Plain data throughout. -/

namespace Sys2Proof.Machine

/-- The twelve registers by name (R20, R21). The set is closed; there are no aliases and no hard-wired register. -/
inductive Reg where
  | ip | acc | r0 | r1 | r2 | r3 | r4 | r5 | r6 | r7 | sp | fp
  deriving DecidableEq, Repr

/-- The register file: twelve 16-bit registers (R20). The 24-byte backing store of R29 is a view of it
(`RegFile.buffer` in Ops.lean; log entry 12). -/
structure RegFile where
  /-- Instruction pointer: between steps the address of the next opcode (R26). -/
  ip : Word
  /-- Accumulator: the destination of every addition and the comparand of the conditional jump (R21, R23). -/
  acc : Word
  r0 : Word
  r1 : Word
  r2 : Word
  r3 : Word
  r4 : Word
  r5 : Word
  r6 : Word
  r7 : Word
  /-- Stack pointer: the next free slot below the top of the stack (R175). -/
  sp : Word
  /-- Frame pointer: initialised by LOAD, used implicitly by no instruction (R23). -/
  fp : Word
  deriving DecidableEq, Repr

/-- What a memory access was for (R66). Recorded in an OutOfBounds fault; no behaviour depends on it. -/
inductive AccessKind where
  /-- An opcode or operand fetch (R110, R111). -/
  | fetch
  /-- The data read of MOV_MEM_REG. -/
  | dataRead
  /-- The data write of MOV_REG_MEM. -/
  | dataWrite
  /-- The stack write of PSH_LIT and PSH_REG, the `sp < 2` check included. -/
  | stackPush
  /-- The stack read of POP. -/
  | stackPop
  /-- The host's `nextEquals`, answered to the host and never latched (R115). -/
  | peek
  deriving DecidableEq, Repr

/-- The machine's three faults with their info (R210, R211): what the fault latch holds. The spec says what a fault
leaves behind (R118, R213), so the step that raises one ends in a NEXT state with the latch set, and the outcome
`Host.Outcome.fault` is never answered (DEDUCED, log entry 3, safe). `insnAddr` is the address of the faulting
instruction's opcode. -/
inductive Fault where
  /-- A register operand of 12 or more. Raised by every instruction with a register operand (R210). Safe: it is the
  spec's own fault. -/
  | unknownRegister (index : Byte) (insnAddr : Word)
  /-- An access at an address not below MEMSIZE, or a push with `sp < 2`. Raised by the fetches, MOV_REG_MEM,
  MOV_MEM_REG, PSH_LIT, PSH_REG and POP (R210). `addr` is an integer address, up to 65537 (R211). Safe: it is the
  spec's own fault. -/
  | outOfBounds (addr : Nat) (kind : AccessKind) (insnAddr : Word)
  /-- An opcode byte that is none of the nine, in strict mode. Raised by the step itself (R113). Safe: it is the
  spec's own fault. -/
  | illegalOpcode (opcode : Byte) (insnAddr : Word)
  deriving DecidableEq, Repr

/-- Why an instruction would have no meaning in this model. Closed. -/
inductive Refusal where
  /-- An instruction not modelled yet, by its mnemonic. Raised by no arm of `exec`: all nine have their meaning.
  Safe: a refusal proves nothing about the instruction. -/
  | notModelled (mnemonic : String)
  deriving DecidableEq, Repr

/-- Main memory (R30) as (address, byte) pairs in one canonical form: addresses strictly rising, no byte equal to
what an unlisted address reads as (`Memory.wf` in Ops.lean; log entry 9). -/
abbrev Memory := List Host.Cell

/-- Everything the spec gives the machine (R20, R30, R31, R32) and its launch parameters (R6). "No other hidden
state" (R36). -/
structure State where
  /-- The twelve registers (R20). -/
  regs : RegFile
  /-- The bytes of memory (R30). -/
  mem : Memory
  /-- MEMSIZE: the number of valid cells, 0 to 65535 (R31). -/
  memSize : Word
  /-- The fault latch (R32): sticky, cleared by RESET only (R216). -/
  fault : Option Fault
  /-- OPC, PERMISSIVE_ILLEGAL and HALT_SENTINEL: no step changes them (R38; log entry 1). -/
  config : Config
  deriving DecidableEq, Repr

/-- Every register zero: "allocated once at engine construction (zero-filled)" (R37). -/
def RegFile.zero : RegFile where
  ip := 0
  acc := 0
  r0 := 0
  r1 := 0
  r2 := 0
  r3 := 0
  r4 := 0
  r5 := 0
  r6 := 0
  r7 := 0
  sp := 0
  fp := 0

/-- The machine after `RESET(size)` under given launch parameters (R37, R191, R240): all registers and all cells zero,
MEMSIZE the given size, no fault latched. -/
def State.launch (cfg : Config) (size : Word) : State where
  regs := RegFile.zero
  mem := []
  memSize := size
  fault := none
  config := cfg

/-- The machine right after reset: `RESET(65535)` under the spec's default launch parameters. DESIGN CHOICE (log
entry 2, unsafe): RESET takes the size from the host, and this one fixed state needs one; the largest is taken. -/
def State.reset : State := State.launch Config.standard 65535

end Sys2Proof.Machine
end

