-- ==== Sys2Proof/Machine/Ops.lean ====
section
/-! DEFINITION. The named operations over registers and memory: the register accessors (R24, R25), the byte memory
behind the address translator (R50 to R57), raising a fault (R213, R118), and the stack micro-operations (R170, R171).
An operation that can fault answers in `Except Fault`: the fault, or its result. -/

namespace Sys2Proof.Machine

/-! ### Registers -/

/-- The value of a register. -/
def RegFile.get (f : RegFile) : Reg → Word
  | .ip => f.ip
  | .acc => f.acc
  | .r0 => f.r0
  | .r1 => f.r1
  | .r2 => f.r2
  | .r3 => f.r3
  | .r4 => f.r4
  | .r5 => f.r5
  | .r6 => f.r6
  | .r7 => f.r7
  | .sp => f.sp
  | .fp => f.fp

/-- The register file with one register written. -/
def RegFile.set (f : RegFile) (r : Reg) (v : Word) : RegFile :=
  match r with
  | .ip => { f with ip := v }
  | .acc => { f with acc := v }
  | .r0 => { f with r0 := v }
  | .r1 => { f with r1 := v }
  | .r2 => { f with r2 := v }
  | .r3 => { f with r3 := v }
  | .r4 => { f with r4 := v }
  | .r5 => { f with r5 := v }
  | .r6 => { f with r6 := v }
  | .r7 => { f with r7 := v }
  | .sp => { f with sp := v }
  | .fp => { f with fp := v }

/-- The twelve registers in index order (R21, decision D3). -/
def allRegs : List Reg := [.ip, .acc, .r0, .r1, .r2, .r3, .r4, .r5, .r6, .r7, .sp, .fp]

/-- The register backing store of R29: 24 bytes, register `i` at offsets `2i` (high byte) and `2i + 1` (low byte). A
representation only (decision D21); no instruction can name it (R51). -/
def RegFile.buffer (f : RegFile) : List Byte := allRegs.flatMap fun r => wordBytes (f.get r)

/-- Read a register, `x[i]` for a valid index (R24). -/
def State.readReg (s : State) (r : Reg) : Word := s.regs.get r

/-- Write a register, `x[i] <- v` for a valid index: nothing else changes (R25). -/
def State.writeReg (s : State) (r : Reg) (v : Word) : State := { s with regs := s.regs.set r v }

/-- `ip <- ip + n`: the advance a fetch of `n` bytes makes (R110, R111). The sum cannot leave 16 bits where the fetch
succeeded (R28). -/
def State.advance (s : State) (n : Nat) : State := s.writeReg .ip (s.readReg .ip + BitVec.ofNat 16 n)

/-! ### Memory -/

/-- What a cell that nothing is listed for reads as: memory is zero-initialised (R37, R191). -/
def Memory.unlisted : Byte := 0

/-- The byte of memory at an address, `mem[a]` (R30). The bound check is the caller's. -/
def Memory.read : Memory → Nat → Byte
  | [], _ => Memory.unlisted
  | (k, v) :: rest, a => if k = a then v else Memory.read rest a

/-- A cell in front of the rest, unless it holds what an unlisted address reads as. -/
def Memory.cons (a : Nat) (b : Byte) (rest : Memory) : Memory :=
  if b = Memory.unlisted then rest else (a, b) :: rest

/-- `mem[a] <- b`, no other cell changed (R53), keeping the canonical form. -/
def Memory.write (m : Memory) (a : Nat) (b : Byte) : Memory :=
  match m with
  | [] => Memory.cons a b []
  | (k, v) :: rest =>
    if a < k then Memory.cons a b ((k, v) :: rest)
    else if a = k then Memory.cons a b rest
    else (k, v) :: Memory.write rest a b

/-- The memory that holds the given bytes from address `a` on and nothing else (R192 LOAD). -/
def Memory.ofBytesAt (a : Nat) : List Byte → Memory
  | [] => []
  | b :: rest => Memory.cons a b (Memory.ofBytesAt (a + 1) rest)

/-- Every listed address is at least `lo`, strictly rising, and every listed byte differs from the unlisted one. -/
def Memory.wfFrom (lo : Nat) : Memory → Bool
  | [] => true
  | (k, v) :: rest => decide (lo ≤ k) && decide (v ≠ Memory.unlisted) && Memory.wfFrom (k + 1) rest

/-- The canonical form of memory: addresses strictly rising, no entry equal to what an unlisted address reads as. -/
def Memory.wf (m : Memory) : Bool := Memory.wfFrom 0 m

/-- Every listed address is below the bound: only `mem[0 .. MEMSIZE-1]` exists (R30). -/
def Memory.below (m : Memory) (bound : Nat) : Bool := m.all fun c => decide (c.1 < bound)

/-! ### The address translator: identity with a bound check (R50) -/

/-- An `n`-byte access at integer address `a` is inside memory: its last byte is below MEMSIZE, in integer arithmetic
that never wraps (R50, R54). -/
def State.inBounds (s : State) (a n : Nat) : Bool := a + n ≤ s.memSize.toNat

/-- `MemRead(a, 1)` (R52). `insn` is the address of the executing instruction, kept for the fault's info. -/
def State.memRead1 (s : State) (a : Nat) (kind : AccessKind) (insn : Word) : Except Fault Byte :=
  if s.inBounds a 1 then .ok (s.mem.read a) else .error (.outOfBounds a kind insn)

/-- `MemRead(a, 2)`, big-endian; reads nothing unless both bytes are in range, and reports `a` (R56). -/
def State.memRead2 (s : State) (a : Nat) (kind : AccessKind) (insn : Word) : Except Fault Word :=
  if s.inBounds a 2 then .ok (joinBytes (s.mem.read a) (s.mem.read (a + 1))) else .error (.outOfBounds a kind insn)

/-- `MemWrite(a, 1, b)` (R53). -/
def State.memWrite1 (s : State) (a : Nat) (b : Byte) (kind : AccessKind) (insn : Word) : Except Fault State :=
  if s.inBounds a 1 then .ok { s with mem := s.mem.write a b } else .error (.outOfBounds a kind insn)

/-- `MemWrite(a, 2, v)`, big-endian; both addresses are checked before either byte is written (R57). -/
def State.memWrite2 (s : State) (a : Nat) (v : Word) (kind : AccessKind) (insn : Word) : Except Fault State :=
  if s.inBounds a 2 then .ok { s with mem := (s.mem.write a (hiByte v)).write (a + 1) (loByte v) }
  else .error (.outOfBounds a kind insn)

/-! ### Taking a fault. There is no return from one: only RESET clears the latch (R216). -/

/-- The numeric code of a fault's name (R6, R210). Code 0 would be "no fault". -/
def faultCode : FaultName → Nat
  | .unknownRegister => 1
  | .outOfBounds => 2
  | .illegalOpcode => 3

/-- The name of a fault (R210). -/
def Fault.name : Fault → FaultName
  | .unknownRegister _ _ => .unknownRegister
  | .outOfBounds _ _ _ => .outOfBounds
  | .illegalOpcode _ _ => .illegalOpcode

/-- The numeric code of a fault (R210). -/
def Fault.code (f : Fault) : Nat := faultCode f.name

/-- `raise F(info)` (R213): the latch is set and nothing else changes. What the fetches did to `ip` stays (R118). -/
def State.raise (s : State) (f : Fault) : State := { s with fault := some f }

/-- The end of an instruction whose phases 2 to 4 (R114) gave `r`, from the state `s` its operand fetches left: the
state it completed in, or the fault raised in `s`, so that a fault changes nothing but `ip` and the latch (R118). -/
def State.conclude (s : State) (r : Except Fault State) : Host.Outcome State Fault Refusal :=
  match r with
  | .ok t => .next t
  | .error f => .next (s.raise f)

/-! ### The stack micro-operations -/

/-- `push(value)` (R170): write at the old `sp`, then `sp - 2`; faults if `sp < 2` or the slot is not in memory. -/
def State.push (s : State) (v : Word) (insn : Word) : Except Fault State := do
  let sp := s.readReg .sp
  if sp.toNat < 2 then .error (.outOfBounds sp.toNat .stackPush insn)
  let t ← s.memWrite2 sp.toNat v .stackPush insn
  return t.writeReg .sp (sp - 2)

/-- `pop()` (R171): `sp + 2` first, then read at the new `sp`; faults if the slot is not in memory, on integers. -/
def State.pop (s : State) (insn : Word) : Except Fault (Word × State) := do
  let sp := s.readReg .sp
  let v ← s.memRead2 (sp.toNat + 2) .stackPop insn
  return (v, s.writeReg .sp (sp + 2))

end Sys2Proof.Machine
end

