-- ==== Sys2Proof/Machine/Operands.lean ====
section
/-! DEFINITION. The operand forms. A `LIT16` or `ADDR16` is used as it stands, unsigned and absolute (R87), so the only
form with a rule of its own is the register index (R21, R24, R25, R88). -/

namespace Sys2Proof.Machine

/-- The index of a register (R21). -/
def Reg.index : Reg → Byte
  | .ip => 0
  | .acc => 1
  | .r0 => 2
  | .r1 => 3
  | .r2 => 4
  | .r3 => 5
  | .r4 => 6
  | .r5 => 7
  | .r6 => 8
  | .r7 => 9
  | .sp => 10
  | .fp => 11

/-- The register an integer index names; none from 12 on, with no reduction modulo anything (R21, R88). -/
def Reg.atIndex (i : Nat) : Option Reg := allRegs[i]?

/-- The register a `REG8` byte names (R88). -/
def Reg.ofIndex (i : Byte) : Option Reg := Reg.atIndex i.toNat

/-- Phase 2 of an instruction for one register operand (R114): the register named, or UnknownRegister (R24, R25). -/
def operandReg (insn : Word) (i : Byte) : Except Fault Reg :=
  match Reg.ofIndex i with
  | some r => .ok r
  | none => .error (.unknownRegister i insn)

end Sys2Proof.Machine
end

