-- ==== Sys2Proof/Machine/Flags.lean ====
section
/-! DEFINITION. The machine has NO flags, condition codes or predicate registers (R33): the addition gives "no overflow
signal" and the conditional jump compares its literal with the accumulator. What stands here is the ALU datapath that
other machines would set flags from (R151). -/

namespace Sys2Proof.Machine

/-- The 16-bit sum `a +16 b`, wrapping modulo 65536 with no signal (R9, R150, R151). -/
def aluAdd (a b : Word) : Word := a + b

/-- The condition of the conditional jump: all 16 bits compared (R151, R160). -/
def aluNotEqual (a b : Word) : Bool := a != b

end Sys2Proof.Machine
end

