-- ==== Sys2Proof/Machine/Arithmetic.lean ====
section
/-! DEFINITION. The arithmetic instruction (42_arithmetic.md). Like every meaning it takes the state before the
instruction and first makes the operand fetches' advance of `ip` (R114 phase 1). -/

namespace Sys2Proof.Machine

/-- ADD_REG_REG (R150): `acc <- (x[p] + x[q]) mod 65536`; both sources are read before `acc` is written. -/
def execAddRegReg (p q : Byte) (s : State) : Host.Outcome State Fault Refusal :=
  let insn := s.readReg .ip
  let s := s.advance 3
  s.conclude do
    let a ← operandReg insn p
    let b ← operandReg insn q
    return s.writeReg .acc (aluAdd (s.readReg a) (s.readReg b))

end Sys2Proof.Machine
end

