-- ==== Sys2Proof/Machine/ControlFlow.lean ====
section
/-! DEFINITION. The control transfer instruction (43_control_flow.md). Like every meaning it takes the state before the
instruction and first makes the operand fetches' advance of `ip` (R114 phase 1). -/

namespace Sys2Proof.Machine

/-- JMP_NOT_EQ (R160): `ip <- addr` if `lit` differs from `acc`, else `ip` stays after the instruction. The target is
not checked (R161). -/
def execJmpNotEq (lit addr : Word) (s : State) : Host.Outcome State Fault Refusal :=
  let s := s.advance 5
  s.conclude (.ok (if aluNotEqual lit (s.readReg .acc) then s.writeReg .ip addr else s))

end Sys2Proof.Machine
end

