-- ==== Sys2Proof/Machine/DataMovement.lean ====
section
/-! DEFINITION. The data movement instructions (41_data_movement.md). A meaning takes the state BEFORE the instruction,
`ip` at its opcode; its first act is the advance the operand fetches make (R114 phase 1), after which `ip` is the
address of the next instruction. The step has fetched every byte before it calls one (Fetch.lean). -/

namespace Sys2Proof.Machine

/-- MOV_LIT_REG (R130): `x[dst] <- lit`. Index 0 jumps (R162). -/
def execMovLitReg (lit : Word) (dst : Byte) (s : State) : Host.Outcome State Fault Refusal :=
  let insn := s.readReg .ip
  let s := s.advance 4
  s.conclude do
    let d ← operandReg insn dst
    return s.writeReg d lit

/-- MOV_REG_REG (R131): `x[dst] <- x[src]`, the source index checked first; a source of `ip` reads the address of the
next instruction. -/
def execMovRegReg (src dst : Byte) (s : State) : Host.Outcome State Fault Refusal :=
  let insn := s.readReg .ip
  let s := s.advance 3
  s.conclude do
    let r ← operandReg insn src
    let d ← operandReg insn dst
    return s.writeReg d (s.readReg r)

/-- MOV_REG_MEM (R132): `mem[addr], mem[addr+1] <- x[src]`, big-endian, both bytes or none. -/
def execMovRegMem (src : Byte) (addr : Word) (s : State) : Host.Outcome State Fault Refusal :=
  let insn := s.readReg .ip
  let s := s.advance 4
  s.conclude do
    let r ← operandReg insn src
    s.memWrite2 addr.toNat (s.readReg r) .dataWrite insn

/-- MOV_MEM_REG (R133): `x[dst] <- {mem[addr], mem[addr+1]}`, the index checked before the address. -/
def execMovMemReg (addr : Word) (dst : Byte) (s : State) : Host.Outcome State Fault Refusal :=
  let insn := s.readReg .ip
  let s := s.advance 4
  s.conclude do
    let d ← operandReg insn dst
    let v ← s.memRead2 addr.toNat .dataRead insn
    return s.writeReg d v

end Sys2Proof.Machine
end

