-- ==== Sys2Proof/Machine/Stack.lean ====
section
/-! DEFINITION. The stack instructions (44_stack.md), over the micro-operations `State.push` and `State.pop`. Like every
meaning each takes the state before the instruction and first makes the operand fetches' advance of `ip`
(R114 phase 1). -/

namespace Sys2Proof.Machine

/-- PSH_LIT (R172): push the literal. -/
def execPshLit (lit : Word) (s : State) : Host.Outcome State Fault Refusal :=
  let insn := s.readReg .ip
  let s := s.advance 3
  s.conclude (s.push lit insn)

/-- PSH_REG (R173): push a register, read before `sp` is changed; the index is checked before the stack. -/
def execPshReg (src : Byte) (s : State) : Host.Outcome State Fault Refusal :=
  let insn := s.readReg .ip
  let s := s.advance 2
  s.conclude do
    let r ← operandReg insn src
    s.push (s.readReg r) insn

/-- POP (R174): `x[dst] <- pop()`, the destination written after `sp` has been incremented; the index is checked before
the stack. -/
def execPop (dst : Byte) (s : State) : Host.Outcome State Fault Refusal :=
  let insn := s.readReg .ip
  let s := s.advance 2
  s.conclude do
    let d ← operandReg insn dst
    let (v, t) ← s.pop insn
    return t.writeReg d v

end Sys2Proof.Machine
end

