-- ==== Sys2Proof/Machine/Dispatch.lean ====
section
/-! DEFINITION. One arm per instruction (R112): each calls its meaning. -/

namespace Sys2Proof.Machine

/-- What an instruction does from the state before it, `ip` at its opcode (R112, R114). -/
def exec (i : Instr) (s : State) : Host.Outcome State Fault Refusal :=
  match i with
  | .movLitReg lit dst => Sys2Proof.Machine.execMovLitReg lit dst s
  | .movRegReg src dst => Sys2Proof.Machine.execMovRegReg src dst s
  | .movRegMem src addr => Sys2Proof.Machine.execMovRegMem src addr s
  | .movMemReg addr dst => Sys2Proof.Machine.execMovMemReg addr dst s
  | .addRegReg p q => Sys2Proof.Machine.execAddRegReg p q s
  | .jmpNotEq lit addr => Sys2Proof.Machine.execJmpNotEq lit addr s
  | .pshLit lit => Sys2Proof.Machine.execPshLit lit s
  | .pshReg src => Sys2Proof.Machine.execPshReg src s
  | .pop dst => Sys2Proof.Machine.execPop dst s

end Sys2Proof.Machine
end

