-- ==== Sys2Proof/Machine/Fetch.lean ====
section
/-! DEFINITION. Fetch and decode (R110 to R113): the two fetch primitives and the fetch phase of a step, which runs the
decoder of Decode.lean on them. A fault raised here ends the step in the state the fetch answers as its error. -/

namespace Sys2Proof.Machine

/-- `fetch()` (R110): the byte at `ip`, then `ip + 1`. A fault leaves `ip` where it is and carries its address. -/
def State.fetch (insn : Word) (s : State) : Except State (Byte × State) :=
  match s.memRead1 (s.readReg .ip).toNat .fetch insn with
  | .ok b => .ok (b, s.advance 1)
  | .error f => .error (s.raise f)

/-- `fetch16()` (R111): the big-endian value at `ip` and `ip + 1`, then `ip + 2`. The advance is atomic: a fault leaves
`ip` where it is even if only the second byte is out of range (conflict C3). -/
def State.fetch16 (insn : Word) (s : State) : Except State (Word × State) :=
  match s.memRead2 (s.readReg .ip).toNat .fetch insn with
  | .ok v => .ok (v, s.advance 2)
  | .error f => .error (s.raise f)

/-- The machine as a source of operand bytes. -/
def fetchSource (insn : Word) : OperandSource State State where
  byte := State.fetch insn
  word := State.fetch16 insn

/-- An undefined opcode `op`, fetched at `insn` (R113): IllegalOpcode in strict mode, in permissive mode nothing beyond
the opcode fetch. -/
def State.undefinedOpcode (s : State) (op : Byte) (insn : Word) : State :=
  if s.config.permissiveIllegal then s else s.raise (.illegalOpcode op insn)

/-- What the fetch phase of a step comes to. -/
inductive Fetched where
  /-- An instruction, and the state its fetches left: only `ip` moved, past the instruction. -/
  | execute (i : Instr) (after : State)
  /-- The step ends here: a fetch faulted, or the opcode is undefined. -/
  | ended (after : State)
  deriving DecidableEq, Repr

/-- Fetch the opcode, select the instruction, fetch its operands in order (R112, R114 phase 1). -/
def State.fetchInstr (s : State) : Fetched :=
  let insn := s.readReg .ip
  match s.fetch insn with
  | .error t => .ended t
  | .ok (op, t) =>
    match t.config.opc.select op with
    | none => .ended (t.undefinedOpcode op insn)
    | some m =>
      match takeOperands (fetchSource insn) m t with
      | .ok (i, u) => .execute i u
      | .error u => .ended u

/-- The bytes of memory from address `a` on, at most `n`, ending where memory ends (R93). -/
def State.bytesFrom (s : State) (a : Nat) : Nat → List Byte
  | 0 => []
  | n + 1 => if s.inBounds a 1 then s.mem.read a :: s.bytesFrom (a + 1) n else []

/-- The bytes the step can see at `ip`: at most five, the longest instruction (R80, R119). -/
def State.code (s : State) : List Byte := s.bytesFrom (s.readReg .ip).toNat 5

/-- Bytes stored from address `a` on, those beyond the last valid cell left out. -/
def State.storeCode (s : State) (a : Nat) : List Byte → State
  | [] => s
  | b :: rest => (if s.inBounds a 1 then { s with mem := s.mem.write a b } else s).storeCode (a + 1) rest

/-- Memory long enough for five bytes at `ip`, as far as 65535 cells allow: MEMSIZE is only ever raised. -/
def State.growForCode (s : State) : State :=
  let need := min 65535 ((s.readReg .ip).toNat + 5)
  if s.memSize.toNat < need then { s with memSize := BitVec.ofNat 16 need } else s

end Sys2Proof.Machine
end

