-- ==== Sys2Proof/Machine/Step.lean ====
section
/-! DEFINITION. One STEP of the machine (R112, R116). -/

namespace Sys2Proof.Machine

/-- `step()` of R112, whose precondition is an empty latch: the fetch phase, then the instruction fetched is executed;
or the fetch phase ends the step. -/
def stepUnlatched (s : State) : Host.Outcome State Fault Refusal :=
  match s.fetchInstr with
  | .ended t => .next t
  | .execute i _ => exec i s

/-- STEP, the single-step controller (R116): with a fault latched nothing happens, else R112 is performed once. -/
def step (s : State) : Host.Outcome State Fault Refusal :=
  match s.fault with
  | some _ => .next s
  | none => stepUnlatched s

/-- `s` with the instruction of a table word stored at `ip`, where `step` fetches next. It stands for loading a program
from outside (log entry 14): MEMSIZE is raised where the instruction would not fit, and a latched fault, which would
keep `step` from fetching, is cleared. -/
def State.withFetchWord (s : State) (nbits w : Nat) : State :=
  let t : State := { s with fault := none }
  t.growForCode.storeCode (s.readReg .ip).toNat (tableBytes nbits w)

end Sys2Proof.Machine
end

