-- ==== Sys2Proof/Machine/Commands.lean ====
section
/-! DEFINITION. The host interface (45_host_interface.md): the seven commands of R190 and their answers, and the
driver's run loop (R117). A command is one atomic transition between steps (R198); `step` itself takes no command, so a
statement about steps assumes a host that issues only STEP (R198 (c); log entry 7, unsafe). -/

namespace Sys2Proof.Machine

/-- How a host names a register: by name or by index (R194). -/
inductive RegSelector where
  | name (n : String)
  | index (i : Nat)
  deriving DecidableEq, Repr

/-- The name of a register (R20, R194). -/
def Reg.name : Reg → String
  | .ip => "ip"
  | .acc => "acc"
  | .r0 => "r0"
  | .r1 => "r1"
  | .r2 => "r2"
  | .r3 => "r3"
  | .r4 => "r4"
  | .r5 => "r5"
  | .r6 => "r6"
  | .r7 => "r7"
  | .sp => "sp"
  | .fp => "fp"

/-- The register a host names: name and index reach the same storage; an unrecognised name or an index above 11 names
none (R194). -/
def RegSelector.resolve : RegSelector → Option Reg
  | .name n => allRegs.find? fun r => r.name == n
  | .index i => Reg.atIndex i

/-- The commands of R190. -/
inductive Command where
  /-- `RESET(size)` (R191). -/
  | reset (size : Nat)
  /-- `LOAD(program)` (R192). -/
  | load (program : List Byte)
  /-- `STEP` (R193). -/
  | step
  /-- `NEXT_EQUALS(value)` (R115, R196). -/
  | nextEquals (value : Byte)
  /-- `REG_GET(reg)` (R194). -/
  | regGet (reg : RegSelector)
  /-- `REG_SET(reg, value)` (R195). -/
  | regSet (reg : RegSelector) (value : Word)
  /-- `MEM_READ(addr, n)` (R197). -/
  | memRead (addr n : Nat)
  deriving DecidableEq, Repr

/-- Errors of host commands: answers to the host, never latched (R198 (b), R226). Their names and codes are those of the
faults (`CommandError.name`, `CommandError.code`). -/
inductive CommandError where
  /-- `UnknownRegister` from REG_GET or REG_SET (R194, R195). -/
  | unknownRegister
  /-- `OutOfBounds` from NEXT_EQUALS, with its address and kind (R115), or from MEM_READ, to which R197 gives no info
  (DESIGN CHOICE, log entry 11, safe). -/
  | outOfBounds (info : Option (Nat × AccessKind))
  /-- The error of a RESET the interface refuses for its size (R191). -/
  | refusedReset (size : Nat)
  /-- The error of a LOAD refused for the length of its program (R192). -/
  | refusedLoad (length : Nat)
  deriving DecidableEq, Repr

/-- The name of a command's error: "they use the same names and codes as rule R210" (R226). Which name a refusal has is a
free value (log entry 17). -/
def CommandError.name : CommandError → FaultName
  | .unknownRegister => .unknownRegister
  | .outOfBounds _ => .outOfBounds
  | .refusedReset size => Config.refusedResetName size
  | .refusedLoad length => Config.refusedLoadName length

/-- The numeric code of a command's error, the one its name has as a fault (R210, R226). -/
def CommandError.code (e : CommandError) : Nat := faultCode e.name

/-- What a command reports to the host. -/
inductive Answer where
  /-- Done: RESET, LOAD, REG_SET, and a STEP that completed. -/
  | ok
  /-- STEP reports `fault(code, info)` (R116). -/
  | fault (f : Fault)
  /-- NEXT_EQUALS's result (R115). -/
  | truth (b : Bool)
  /-- REG_GET's result (R194). -/
  | value (v : Word)
  /-- MEM_READ's result (R197). -/
  | bytes (bs : List Byte)
  /-- An error returned for this command only (R198 (b)). -/
  | error (e : CommandError)
  deriving DecidableEq, Repr

/-- What STEP reports, read off the latch after it: `ok`, or the fault, the latched one again if it was latched before
(R116; DEDUCED, log entry 4, safe). -/
def State.report (s : State) : Answer :=
  match s.fault with
  | none => .ok
  | some f => .fault f

/-- `RESET(size)` (R191): everything but the launch parameters is as constructed (log entry 8); a size above 65535 is
refused. -/
def State.resetCommand (s : State) (size : Nat) : State × Answer :=
  if size ≤ 65535 then (State.launch s.config (BitVec.ofNat 16 size), .ok)
  else (s, .error (.refusedReset size))

/-- `LOAD(program)` (R192, R242): memory is exactly the program, `sp` and `fp` are `n - 2`, nothing else changes; a
program of fewer than 2 or more than 65535 bytes is refused. -/
def State.loadCommand (s : State) (program : List Byte) : State × Answer :=
  let n := program.length
  if 2 ≤ n ∧ n ≤ 65535 then
    let t : State := { s with memSize := BitVec.ofNat 16 n, mem := Memory.ofBytesAt 0 program }
    ((t.writeReg .sp (BitVec.ofNat 16 (n - 2))).writeReg .fp (BitVec.ofNat 16 (n - 2)), .ok)
  else (s, .error (.refusedLoad n))

/-- `STEP` (R193). `step` always answers a next state (log entry 3); the arms of the other two outcomes, which
are never taken, only complete the match. -/
def State.stepCommand (s : State) : State × Answer :=
  match Sys2Proof.Machine.step s with
  | .next t => (t, t.report)
  | .fault f => (s.raise f, .fault f)
  | .refused _ => (s, s.report)

/-- `nextEquals(value)` (R115): compares `mem[ip]` with a byte, without advancing; outside memory it fails. -/
def State.nextEquals (s : State) (value : Byte) : Answer :=
  let a := (s.readReg .ip).toNat
  if s.inBounds a 1 then .truth (s.mem.read a == value) else .error (.outOfBounds (some (a, .peek)))

/-- `n` bytes of memory from address `a` on. -/
def State.window (s : State) (a : Nat) : Nat → List Byte
  | 0 => []
  | n + 1 => s.mem.read a :: s.window (a + 1) n

/-- One host command: the state after it and its answer. -/
def State.command (s : State) : Command → State × Answer
  | .reset size => s.resetCommand size
  | .load program => s.loadCommand program
  | .step => s.stepCommand
  | .nextEquals value => (s, s.nextEquals value)
  | .regGet reg =>
    match reg.resolve with
    | some r => (s, .value (s.readReg r))
    | none => (s, .error .unknownRegister)
  | .regSet reg value =>
    match reg.resolve with
    | some r => (s.writeReg r value, .ok)
    | none => (s, .error .unknownRegister)
  | .memRead addr n =>
    if s.inBounds addr n then (s, .bytes (s.window addr n)) else (s, .error (.outOfBounds none))

/-- Where a run stands between two steps (R117). -/
inductive RunStatus where
  /-- A fault is latched, or `ip` is outside memory: not a final state. -/
  | faulted
  /-- The byte at `ip` is the sentinel and no fault is latched: the only final state. -/
  | halted
  /-- The loop goes on with a STEP. -/
  | running
  deriving DecidableEq, Repr

/-- The tests of the driver's loop, in its order (R117). -/
def State.status (s : State) : RunStatus :=
  match s.fault with
  | some _ => .faulted
  | none =>
    match s.nextEquals s.config.haltSentinel with
    | .truth true => .halted
    | .truth false => .running
    | _ => .faulted

/-- The driver's loop (R117) under a budget of steps, which the caller must impose (R116, R248): it stops where the run
is halted or faulted, and answers the state the budget ends in otherwise. -/
def State.drive : Nat → State → State
  | 0, s => s
  | fuel + 1, s =>
    match s.status with
    | .running => State.drive fuel s.stepCommand.1
    | _ => s

/-- The launch state of a program: RESET(size), then LOAD(program) (R243, R244). -/
def State.boot (cfg : Config) (size : Word) (program : List Byte) : State :=
  ((State.launch cfg size).loadCommand program).1

end Sys2Proof.Machine
end

