-- ==== Sys2Proof/Safety.lean ====
section
/-! DEFINITION. The terms claims are stated in: the state invariant, what a step keeps, the state at a fault (R118), and
safe runs. -/

namespace Sys2Proof.Machine

/-- The fault record is one the machine can latch under these launch parameters (R66, R210, R211): an index that names
no register; never the kind `peek`, and an address of 16 bits, or up to 65537 for a pop; an undefined opcode in strict
mode. -/
def Fault.Plausible (cfg : Config) : Fault → Prop
  | .unknownRegister index _ => 12 ≤ index.toNat
  | .outOfBounds addr kind _ => kind ≠ .peek ∧ addr ≤ 65537 ∧ (kind ≠ .stackPop → addr ≤ 65535)
  | .illegalOpcode opcode _ => cfg.permissiveIllegal = false ∧ cfg.opc.select opcode = none

/-- The invariant of the machine: memory is in canonical form (R30), holds nothing at or above MEMSIZE (R50), and a
latched fault is one the machine can raise (R210, R211). -/
structure State.Inv (s : State) : Prop where
  memWf : s.mem.wf = true
  memBelow : s.mem.below s.memSize.toNat = true
  faultPlausible : ∀ f, s.fault = some f → f.Plausible s.config

/-- Every register but those listed holds what it held. -/
def RegsKept (s t : State) (changed : List Reg) : Prop := ∀ r, r ∉ changed → t.readReg r = s.readReg r

/-- Every byte of memory but those at the listed addresses reads as it did. -/
def MemKept (s t : State) (changed : List Nat) : Prop := ∀ a, a ∉ changed → t.mem.read a = s.mem.read a

/-- MEMSIZE and the launch parameters are as they were (R31, R38). -/
def LaunchKept (s t : State) : Prop := t.memSize = s.memSize ∧ t.config = s.config

/-- MEMSIZE, the launch parameters and the fault latch are as they were. -/
def ControlKept (s t : State) : Prop := LaunchKept s t ∧ t.fault = s.fault

/-- An instruction that completes changes at most the listed registers and the bytes at the listed addresses. -/
def OnlyChanges (s t : State) (regs : List Reg) (bytes : List Nat) : Prop :=
  RegsKept s t regs ∧ MemKept s t bytes ∧ ControlKept s t

/-- The integer value of `ip`: before a step, the address `A` of the opcode. -/
abbrev State.pc (s : State) : Nat := (s.readReg .ip).toNat

/-- The integer value of `sp`. -/
abbrev State.sp (s : State) : Nat := (s.readReg .sp).toNat

/-- MEMSIZE as an integer (R31). -/
abbrev State.size (s : State) : Nat := s.memSize.toNat

/-- The state a step that raises `f` ends in (R118): `ip` holds `ip'`, the latch holds the fault, every other register,
every byte of memory and MEMSIZE hold what they held before the step. -/
def State.FaultedTo (s t : State) (ip' : Nat) (f : Fault) : Prop :=
  t.pc = ip' ∧ t.fault = some f ∧ RegsKept s t [.ip] ∧ MemKept s t [] ∧ LaunchKept s t

/-- The step of `s` raises `f`, with `ip'` left in `ip`, and changes nothing else (R118). -/
def State.StepFaults (s : State) (ip' : Nat) (f : Fault) : Prop := ∃ t, step s = .next t ∧ s.FaultedTo t ip' f

/-- The value a source register gives an instruction of length `len` at `ip`: `ip` itself reads as the address of the
next instruction, because every operand is fetched before any register is read (R26, R114). -/
def State.sourceValue (s : State) (len : Nat) (r : Reg) : Word :=
  if r = .ip then s.readReg .ip + BitVec.ofNat 16 len else s.readReg r

/-- The instruction completes with no fault, and the step after it raises OutOfBounds at its opcode fetch, from `target`
(R161). -/
def State.CompletesThenFaults (s : State) (i : Instr) (target : Word) : Prop :=
  ∃ t, exec i s = .next t ∧ t.fault = none ∧ t.StepFaults target.toNat (.outOfBounds target.toNat .fetch target)

/-- Wherever the five bytes the next step can fetch include address `a` or `a + 1`, it fetches there the high and the low
byte of `v` (R62). -/
def State.FetchesStored (t : State) (a : Nat) (v : Word) : Prop :=
  ∀ k, k < 5 → (t.pc + k = a → t.code[k]? = some (hiByte v)) ∧ (t.pc + k = a + 1 → t.code[k]? = some (loByte v))

/-- Byte `k` of the instruction at `ip` (R8). -/
def State.codeByte (s : State) (k : Nat) : Byte := s.mem.read (s.pc + k)

/-- The big-endian 16-bit operand at bytes `k` and `k + 1` of the instruction at `ip` (R87). -/
def State.codeWord (s : State) (k : Nat) : Word := joinBytes (s.codeByte k) (s.codeByte (k + 1))

/-- The instruction `m` with the operands in the bytes at `ip` (R82, R87). -/
def State.instrAt (s : State) : Mnemonic → Instr
  | .movLitReg => .movLitReg (s.codeWord 1) (s.codeByte 3)
  | .movRegReg => .movRegReg (s.codeByte 1) (s.codeByte 2)
  | .movRegMem => .movRegMem (s.codeByte 1) (s.codeWord 2)
  | .movMemReg => .movMemReg (s.codeWord 1) (s.codeByte 3)
  | .addRegReg => .addRegReg (s.codeByte 1) (s.codeByte 2)
  | .jmpNotEq => .jmpNotEq (s.codeWord 1) (s.codeWord 3)
  | .pshLit => .pshLit (s.codeWord 1)
  | .pshReg => .pshReg (s.codeByte 1)
  | .pop => .pop (s.codeByte 1)

/-- The engine is about to step the instruction `m`: no fault is latched, the opcodes are distinct (R86), and the byte
at `ip` is inside memory and is the opcode of `m` (R112). -/
structure State.Starts (s : State) (m : Mnemonic) : Prop where
  unlatched : s.fault = none
  distinct : s.config.opc.Distinct
  opcodeInMemory : s.pc < s.size
  opcode : s.codeByte 0 = s.config.opc.value m

/-- Push a list of values, first first (R170): the state after, or the fault of the first push that fails. -/
def State.pushAll (insn : Word) : State → List Word → Except Fault State
  | s, [] => .ok s
  | s, v :: rest =>
    match s.push v insn with
    | .error f => .error f
    | .ok t => t.pushAll insn rest

/-- Pop `n` values (R171), first popped first, and the state after. -/
def State.popMany (insn : Word) : State → Nat → Except Fault (List Word × State)
  | s, 0 => .ok ([], s)
  | s, n + 1 =>
    match s.pop insn with
    | .error f => .error f
    | .ok (v, t) =>
      match t.popMany insn n with
      | .error f => .error f
      | .ok (vs, u) => .ok (v :: vs, u)

/-- The data or stack access of the instruction, if it has one, is inside memory (R114 phase 3, R215). -/
def State.AccessInBounds (s : State) : Instr → Prop
  | .movLitReg _ _ => True
  | .movRegReg _ _ => True
  | .movRegMem _ addr => addr.toNat + 1 < s.size
  | .movMemReg addr _ => addr.toNat + 1 < s.size
  | .addRegReg _ _ => True
  | .jmpNotEq _ _ => True
  | .pshLit _ => 2 ≤ s.sp ∧ s.sp + 1 < s.size
  | .pshReg _ => 2 ≤ s.sp ∧ s.sp + 1 < s.size
  | .pop _ => s.sp + 3 < s.size

/-- The registers an instruction may write, `ip` apart: its destination operand, `acc` for the addition, `sp` for the
stack instructions (R23, R25). -/
def writtenRegs : Instr → List Reg
  | .movLitReg _ d => (Reg.ofIndex d).toList
  | .movRegReg _ d => (Reg.ofIndex d).toList
  | .movRegMem _ _ => []
  | .movMemReg _ d => (Reg.ofIndex d).toList
  | .addRegReg _ _ => [.acc]
  | .jmpNotEq _ _ => []
  | .pshLit _ => [.sp]
  | .pshReg _ => [.sp]
  | .pop d => .sp :: (Reg.ofIndex d).toList

/-- A safe run so far: no fault is latched. A faulted run is not final (R117, R216). -/
def State.Safe (s : State) : Prop := s.fault = none

end Sys2Proof.Machine
end

