-- ==== Sys2Proof/Certificates/Slice0/Obligations.lean ====
section
/-! DEFINITION. The statements for the provers, from the numbered rules of spec/. Throughout, `A` of the rules is `s.pc`,
MEMSIZE is `s.size`, and the bytes of the instruction at `ip` are `s.codeByte k` and `s.codeWord k`. -/

open Sys2Proof Sys2Proof.Machine

/-! ### Encoding (30_encoding.md) -/

/-- R96: decoding is the inverse of encoding, for every instruction with every operand value, under every assignment of
distinct opcodes, whatever bytes follow. -/
def Obligations.DecodeEncodeRoundTrip : Prop :=
  ∀ (o : Opcodes), o.Distinct → ∀ (i : Instr) (rest : List Byte), decode o (encode o i ++ rest) = .ok (i, rest)

/-- R91, R96: every bit is significant: bytes that decode to an instruction are its encoding. -/
def Obligations.DecodedBytesAreTheEncoding : Prop :=
  ∀ (o : Opcodes) (bs : List Byte) (i : Instr) (rest : List Byte), decode o bs = .ok (i, rest) → bs = encode o i ++ rest

/-- R84, R96: the opcode byte alone fixes the length, whatever the operand bytes are; decode fails only on an undefined
opcode or by running out of bytes. -/
def Obligations.OpcodeFixesTheLength : Prop :=
  ∀ (o : Opcodes) (b : Byte) (tail : List Byte),
    (o.select b = none → decode o (b :: tail) = .error (.illegalOpcode b)) ∧
    (∀ m, o.select b = some m → m.length ≤ tail.length + 1 →
      ∃ i, decode o (b :: tail) = .ok (i, tail.drop (m.length - 1)) ∧ i.mnemonic = m) ∧
    (∀ m, o.select b = some m → tail.length + 1 < m.length → decode o (b :: tail) = .error .truncated)

/-- R97 and the encodings of R130 to R174: words written out from the spec decode to what they stand for. -/
def Obligations.SpecWordsDecode : Prop :=
  decode Opcodes.standard [0x10, 0x12, 0x34, 0x02] = .ok (.movLitReg 0x1234 2, []) ∧
  decode Opcodes.standard [0x11, 0x02, 0x0B] = .ok (.movRegReg 2 11, []) ∧
  decode Opcodes.standard [0x12, 0x01, 0x00, 0x30] = .ok (.movRegMem 1 0x0030, []) ∧
  decode Opcodes.standard [0x13, 0x00, 0x30, 0x02] = .ok (.movMemReg 0x0030 2, []) ∧
  decode Opcodes.standard [0x14, 0x02, 0x03] = .ok (.addRegReg 2 3, []) ∧
  decode Opcodes.standard [0x15, 0x00, 0x03, 0x00, 0x00] = .ok (.jmpNotEq 3 0, []) ∧
  decode Opcodes.standard [0x17, 0xBE, 0xEF] = .ok (.pshLit 0xBEEF, []) ∧
  decode Opcodes.standard [0x18, 0x02] = .ok (.pshReg 2, []) ∧
  decode Opcodes.standard [0x1A, 0x03] = .ok (.pop 3, []) ∧
  decode Opcodes.standard [0x16] = .error (.illegalOpcode 0x16) ∧
  decode Opcodes.standard [0x10, 0x12] = .error .truncated

/-- R85: the opcode table: opcode, format and length of each instruction, selected by equality on all eight bits. -/
def Obligations.OpcodeTable : Prop :=
  (allMnemonics.map fun m => (m, Opcodes.standard.value m, m.format, m.length)) =
    [(.movLitReg, 0x10, [.lit16, .reg8], 4), (.movRegReg, 0x11, [.reg8, .reg8], 3),
     (.movRegMem, 0x12, [.reg8, .addr16], 4), (.movMemReg, 0x13, [.addr16, .reg8], 4),
     (.addRegReg, 0x14, [.reg8, .reg8], 3), (.jmpNotEq, 0x15, [.lit16, .addr16], 5),
     (.pshLit, 0x17, [.lit16], 3), (.pshReg, 0x18, [.reg8], 2), (.pop, 0x1A, [.reg8], 2)] ∧
  ∀ (b : Byte) (m : Mnemonic), Opcodes.standard.select b = some m ↔ b = Opcodes.standard.value m

/-! ### Registers (10_state.md) -/

/-- R21: index and name of each register; from 12 on an index names no register. The buffer offset of each, read from the
register buffer itself: there its two bytes stand, high byte first. The offsets are the spec's own inference (R29, marked
`[derived: from "two consecutive bytes" per register and the index order of rule R21]`), and the buffer is a view of the
registers here (log entry 12). -/
def Obligations.RegisterIndexMap : Prop :=
  (allRegs.map fun r => (r.index.toNat, r.name)) =
    [(0, "ip"), (1, "acc"), (2, "r0"), (3, "r1"), (4, "r2"), (5, "r3"), (6, "r4"), (7, "r5"), (8, "r6"), (9, "r7"),
     (10, "sp"), (11, "fp")] ∧
  (∀ i : Byte, (∀ r, Reg.ofIndex i = some r ↔ i = r.index) ∧ (Reg.ofIndex i = none ↔ 12 ≤ i.toNat)) ∧
  ∀ f : RegFile, ∀ p ∈ [(Reg.ip, 0), (.acc, 2), (.r0, 4), (.r1, 6), (.r2, 8), (.r3, 10), (.r4, 12), (.r5, 14),
      (.r6, 16), (.r7, 18), (.sp, 20), (.fp, 22)],
    (f.buffer.drop p.2).take 2 = [hiByte (f.get p.1), loByte (f.get p.1)]

/-- The register buffer holds each register as two bytes, high byte first, at offsets `2i` and `2i + 1`. The offsets are
the spec's own inference (R29), and the buffer is a view of the registers here (log entry 12). -/
def Obligations.RegisterBackingStore : Prop :=
  ∀ (f : RegFile), f.buffer.length = 24 ∧
    ∀ r : Reg, f.buffer[2 * r.index.toNat]? = some (hiByte (f.get r)) ∧
      f.buffer[2 * r.index.toNat + 1]? = some (loByte (f.get r)) ∧
      f.get r = joinBytes (f.buffer.getD (2 * r.index.toNat) 0) (f.buffer.getD (2 * r.index.toNat + 1) 0)

/-- R22, R24, R25: access by index. An index of 11 or less reads the register it names and writes it, so that a read
after the write gives the value written, and nothing else changes; an index of 12 or more raises UnknownRegister. -/
def Obligations.RegisterAccessByIndex : Prop :=
  ∀ (s : State) (insn : Word) (i : Byte) (v : Word),
    (i.toNat ≤ 11 → ∃ r, operandReg insn i = .ok r ∧ r.index = i ∧
      (s.writeReg r v).readReg r = v ∧ OnlyChanges s (s.writeReg r v) [r] []) ∧
    (12 ≤ i.toNat → operandReg insn i = .error (.unknownRegister i insn))

/-! ### Memory (20_memory.md) -/

/-- R52, R56: a read of one or two bytes is inside memory or raises OutOfBounds at its first address; two bytes are
big-endian, and the second address is the integer successor (R54). -/
def Obligations.MemoryReadRule : Prop :=
  ∀ (s : State) (a : Nat) (kind : AccessKind) (insn : Word),
    (s.size ≤ a → s.memRead1 a kind insn = .error (.outOfBounds a kind insn)) ∧
    (a < s.size → s.memRead1 a kind insn = .ok (s.mem.read a)) ∧
    (s.size ≤ a + 1 → s.memRead2 a kind insn = .error (.outOfBounds a kind insn)) ∧
    (a + 1 < s.size → ∃ v, s.memRead2 a kind insn = .ok v ∧
      v.toNat = (s.mem.read a).toNat * 256 + (s.mem.read (a + 1)).toNat)

/-- R53, R57: a write of one or two bytes is inside memory or raises OutOfBounds and writes nothing; a 16-bit value goes
high byte first; no other cell changes. In canonical memories; the result is canonical. -/
def Obligations.MemoryWriteRule : Prop :=
  ∀ (s : State) (a : Nat) (b : Byte) (v : Word) (kind : AccessKind) (insn : Word), s.mem.wf = true →
    (s.size ≤ a → s.memWrite1 a b kind insn = .error (.outOfBounds a kind insn)) ∧
    (a < s.size → ∃ t, s.memWrite1 a b kind insn = .ok t ∧ t.mem.read a = b ∧ OnlyChanges s t [] [a] ∧
      t.mem.wf = true) ∧
    (s.size ≤ a + 1 → s.memWrite2 a v kind insn = .error (.outOfBounds a kind insn)) ∧
    (a + 1 < s.size → ∃ t, s.memWrite2 a v kind insn = .ok t ∧ t.mem.read a = hiByte v ∧
      t.mem.read (a + 1) = loByte v ∧ OnlyChanges s t [] [a, a + 1] ∧ t.mem.wf = true)

/-- After a 16-bit write of `v` at `a`, a 16-bit read at `a` gives `v`, and one at `a + 1` gives the low byte of `v` and
the byte after it: the spec's own inference (R58, marked `[derived: from rule R56 and rule R57]`). -/
def Obligations.MixedWidthView : Prop :=
  ∀ (s t : State) (a : Nat) (v : Word) (kind kind' : AccessKind) (insn : Word), s.mem.wf = true →
    s.memWrite2 a v kind insn = .ok t →
    t.memRead2 a kind' insn = .ok v ∧
    (a + 2 < s.size → t.memRead2 (a + 1) kind' insn = .ok (joinBytes (loByte v) (s.mem.read (a + 2))))

/-! ### Fetch and step (40_step_and_fetch.md) -/

/-- R110: `fetch()` takes the byte at the old `ip` and advances `ip` by 1, without overflow; outside memory it raises
OutOfBounds with the address `ip`, which stays. -/
def Obligations.FetchByteRule : Prop :=
  ∀ (s : State) (insn : Word),
    (s.size ≤ s.pc → ∃ t, s.fetch insn = .error t ∧ s.FaultedTo t s.pc (.outOfBounds s.pc .fetch insn)) ∧
    (s.pc < s.size → ∃ t, s.fetch insn = .ok (s.mem.read s.pc, t) ∧ t.pc = s.pc + 1 ∧ OnlyChanges s t [.ip] [])

/-- R111: `fetch16()` takes two bytes big-endian and advances `ip` by 2; if either byte is outside memory it raises
OutOfBounds with the address `ip` and `ip` stays; where it succeeds it is two calls of `fetch()` composed. -/
def Obligations.FetchWordRule : Prop :=
  ∀ (s : State) (insn : Word),
    (s.size ≤ s.pc + 1 → ∃ t, s.fetch16 insn = .error t ∧ s.FaultedTo t s.pc (.outOfBounds s.pc .fetch insn)) ∧
    (s.pc + 1 < s.size → ∃ t, s.fetch16 insn = .ok (joinBytes (s.mem.read s.pc) (s.mem.read (s.pc + 1)), t) ∧
      t.pc = s.pc + 2 ∧ OnlyChanges s t [.ip] [] ∧
      ∃ hi lo u, s.fetch insn = .ok (hi, u) ∧ u.fetch insn = .ok (lo, t) ∧
        joinBytes hi lo = joinBytes (s.mem.read s.pc) (s.mem.read (s.pc + 1)))

/-- R112: with no fault latched, a step whose bytes at `ip` decode to `i` is `exec i` at the state before the step. The
advance of `ip` past the instruction is `exec`'s first act (R114 phase 1). -/
def Obligations.StepRunsTheDecodedInstruction : Prop :=
  ∀ (s : State) (i : Instr) (rest : List Byte), s.fault = none → decode s.config.opc s.code = .ok (i, rest) →
    step s = exec i s

/-- R26, R114 phase 1: the fetches of a whole instruction leave `ip = A + L`, change nothing else, and took the encoding
of the instruction from memory. That `A + L` is at most MEMSIZE, without overflow, is the spec's own inference (R28). -/
def Obligations.FetchesLeaveIpPastTheInstruction : Prop :=
  ∀ (s t : State) (i : Instr), s.fetchInstr = .execute i t →
    t.pc = s.pc + i.length ∧ s.pc + i.length ≤ s.size ∧ OnlyChanges s t [.ip] [] ∧
    (encode s.config.opc i)[0]? = some (s.codeByte 0) ∧
    ∀ k, k < i.length → (encode s.config.opc i)[k]? = some (s.codeByte k)

/-- R110, R212 item 1, R113: an opcode fetch at `ip >= MEMSIZE` raises OutOfBounds with `addr = insn_addr = ip`; an
undefined opcode raises IllegalOpcode with `ip = A + 1` in strict mode, and is a one-byte no-op in permissive mode. -/
def Obligations.NoInstructionRule : Prop :=
  ∀ (s : State), s.fault = none →
    (s.size ≤ s.pc → s.StepFaults s.pc (.outOfBounds s.pc .fetch (s.readReg .ip))) ∧
    (s.pc < s.size → s.config.opc.select (s.codeByte 0) = none →
      (s.config.permissiveIllegal = false →
        s.StepFaults (s.pc + 1) (.illegalOpcode (s.codeByte 0) (s.readReg .ip))) ∧
      (s.config.permissiveIllegal = true → ∃ t, step s = .next t ∧ t.pc = s.pc + 1 ∧ OnlyChanges s t [.ip] []))

/-- R14, R119: the step is total: it answers a next state from every state, a fault being a next state with the latch
set (log entry 3). -/
def Obligations.StepAnswersNext : Prop := ∀ s : State, ∃ t, step s = .next t

/-- R118: when a step raises a fault only `ip` and the latch have changed; `ip` is the address of the fetch that failed,
`A + 1` for IllegalOpcode, and otherwise `A + L`; the address of the instruction is in the record. -/
def Obligations.FaultIsPrecise : Prop :=
  ∀ (s t : State) (f : Fault), s.fault = none → step s = .next t → t.fault = some f →
    RegsKept s t [.ip] ∧ MemKept s t [] ∧ LaunchKept s t ∧
    match f with
    | .outOfBounds addr .fetch insn => insn = s.readReg .ip ∧ t.pc = addr ∧ s.pc ≤ addr ∧ addr ≤ s.pc + 3
    | .illegalOpcode _ insn => insn = s.readReg .ip ∧ t.pc = s.pc + 1
    | .unknownRegister _ insn =>
        insn = s.readReg .ip ∧ ∃ m, s.config.opc.select (s.codeByte 0) = some m ∧ t.pc = s.pc + m.length
    | .outOfBounds _ _ insn =>
        insn = s.readReg .ip ∧ ∃ m, s.config.opc.select (s.codeByte 0) = some m ∧ t.pc = s.pc + m.length

/-- R210, R66: a step raises only the three faults, each with its cause: a register operand of 12 or more; an access at
an address whose bytes are not all below MEMSIZE, or a push with `sp < 2`, under the kind of the access; an undefined
opcode in strict mode. The kind `peek` is never latched. -/
def Obligations.FaultCauses : Prop :=
  ∀ (s t : State) (f : Fault), s.fault = none → step s = .next t → t.fault = some f →
    match f with
    | .unknownRegister index _ =>
        12 ≤ index.toNat ∧ ∃ i rest, decode s.config.opc s.code = .ok (i, rest) ∧ index ∈ i.regOperands
    | .outOfBounds addr .fetch _ => s.size ≤ addr + 1
    | .outOfBounds addr .dataRead _ => s.size ≤ addr + 1 ∧
        ∃ (w : Word) (d : Byte) (rest : List Byte),
          decode s.config.opc s.code = .ok (.movMemReg w d, rest) ∧ addr = w.toNat
    | .outOfBounds addr .dataWrite _ => s.size ≤ addr + 1 ∧
        ∃ (r : Byte) (w : Word) (rest : List Byte),
          decode s.config.opc s.code = .ok (.movRegMem r w, rest) ∧ addr = w.toNat
    | .outOfBounds addr .stackPush _ => addr = s.sp ∧ (s.sp < 2 ∨ s.size ≤ s.sp + 1) ∧
        ∃ (i : Instr) (rest : List Byte), decode s.config.opc s.code = .ok (i, rest) ∧
          (i.mnemonic = .pshLit ∨ i.mnemonic = .pshReg)
    | .outOfBounds addr .stackPop _ => addr = s.sp + 2 ∧ s.size ≤ s.sp + 3 ∧
        ∃ (d : Byte) (rest : List Byte), decode s.config.opc s.code = .ok (.pop d, rest)
    | .outOfBounds _ .peek _ => False
    | .illegalOpcode op _ =>
        op = s.codeByte 0 ∧ s.config.opc.select op = none ∧ s.config.permissiveIllegal = false

/-- A step of a defined opcode completes without a fault exactly when all its bytes are below MEMSIZE, its register
operands name registers and its data or stack access is inside memory: the spec's own inference (R215, marked
`[derived: from the instruction rules R130 to R133, R150, R160, R172 to R174]`). -/
def Obligations.StepIsSafeExactlyWhen : Prop :=
  ∀ (s : State) (m : Mnemonic), s.Starts m → ∃ t, step s = .next t ∧
    (t.Safe ↔ s.pc + m.length ≤ s.size ∧
      ∀ i rest, decode s.config.opc s.code = .ok (i, rest) → i.wellFormed = true ∧ s.AccessInBounds i)

/-- R216: the latch is sticky: no step clears or overwrites it and while it is set a step does nothing; of the host's
commands only RESET clears it. -/
def Obligations.LatchIsSticky : Prop :=
  (∀ (s : State) (f : Fault), s.fault = some f → step s = .next s) ∧
  (∀ (s : State) (f : Fault) (c : Command), s.fault = some f → (∀ n, c ≠ .reset n) →
    (s.command c).1.fault = some f) ∧
  (∀ (s : State) (n : Nat), n ≤ 65535 → (s.command (.reset n)).1.fault = none)

/-! ### The nine instructions, one step each: every fetch fault, every other fault, and the effect -/

/-- R130 MOV_LIT_REG: `10 LL LL dd`, `x[d] <- lit`; a destination of `ip` jumps to the literal. -/
def Obligations.MovLitRegRule : Prop :=
  ∀ s : State, s.Starts .movLitReg →
    (s.size ≤ s.pc + 2 → s.StepFaults (s.pc + 1) (.outOfBounds (s.pc + 1) .fetch (s.readReg .ip))) ∧
    (s.pc + 2 < s.size → s.size ≤ s.pc + 3 →
      s.StepFaults (s.pc + 3) (.outOfBounds (s.pc + 3) .fetch (s.readReg .ip))) ∧
    (s.pc + 3 < s.size → 12 ≤ (s.codeByte 3).toNat →
      s.StepFaults (s.pc + 4) (.unknownRegister (s.codeByte 3) (s.readReg .ip))) ∧
    (s.pc + 3 < s.size → ∀ d, Reg.ofIndex (s.codeByte 3) = some d →
      ∃ t, step s = .next t ∧ t.readReg d = s.codeWord 1 ∧ (d ≠ .ip → t.pc = s.pc + 4) ∧ OnlyChanges s t [.ip, d] [])

/-- R131 MOV_REG_REG: `11 ss dd`, `x[d] <- x[s]`; a source of `ip` reads `A + 3`, a destination of `ip` jumps. -/
def Obligations.MovRegRegRule : Prop :=
  ∀ s : State, s.Starts .movRegReg →
    (s.size ≤ s.pc + 1 → s.StepFaults (s.pc + 1) (.outOfBounds (s.pc + 1) .fetch (s.readReg .ip))) ∧
    (s.pc + 1 < s.size → s.size ≤ s.pc + 2 →
      s.StepFaults (s.pc + 2) (.outOfBounds (s.pc + 2) .fetch (s.readReg .ip))) ∧
    (s.pc + 2 < s.size → 12 ≤ (s.codeByte 1).toNat →
      s.StepFaults (s.pc + 3) (.unknownRegister (s.codeByte 1) (s.readReg .ip))) ∧
    (s.pc + 2 < s.size → (s.codeByte 1).toNat ≤ 11 → 12 ≤ (s.codeByte 2).toNat →
      s.StepFaults (s.pc + 3) (.unknownRegister (s.codeByte 2) (s.readReg .ip))) ∧
    (s.pc + 2 < s.size → ∀ r d, Reg.ofIndex (s.codeByte 1) = some r → Reg.ofIndex (s.codeByte 2) = some d →
      ∃ t, step s = .next t ∧ t.readReg d = s.sourceValue 3 r ∧ (d ≠ .ip → t.pc = s.pc + 3) ∧
        OnlyChanges s t [.ip, d] [])

/-- R132 MOV_REG_MEM: `12 ss AA AA`, `mem[addr], mem[addr+1] <- x[s]` high byte first, both bytes or none; a source of
`ip` stores `A + 4`. In canonical memories. -/
def Obligations.MovRegMemRule : Prop :=
  ∀ s : State, s.Starts .movRegMem → s.mem.wf = true →
    (s.size ≤ s.pc + 1 → s.StepFaults (s.pc + 1) (.outOfBounds (s.pc + 1) .fetch (s.readReg .ip))) ∧
    (s.pc + 1 < s.size → s.size ≤ s.pc + 3 →
      s.StepFaults (s.pc + 2) (.outOfBounds (s.pc + 2) .fetch (s.readReg .ip))) ∧
    (s.pc + 3 < s.size → 12 ≤ (s.codeByte 1).toNat →
      s.StepFaults (s.pc + 4) (.unknownRegister (s.codeByte 1) (s.readReg .ip))) ∧
    (s.pc + 3 < s.size → (s.codeByte 1).toNat ≤ 11 → s.size ≤ (s.codeWord 2).toNat + 1 →
      s.StepFaults (s.pc + 4) (.outOfBounds (s.codeWord 2).toNat .dataWrite (s.readReg .ip))) ∧
    (s.pc + 3 < s.size → (s.codeWord 2).toNat + 1 < s.size → ∀ r, Reg.ofIndex (s.codeByte 1) = some r →
      ∃ t, step s = .next t ∧ t.mem.read (s.codeWord 2).toNat = hiByte (s.sourceValue 4 r) ∧
        t.mem.read ((s.codeWord 2).toNat + 1) = loByte (s.sourceValue 4 r) ∧ t.pc = s.pc + 4 ∧
        OnlyChanges s t [.ip] [(s.codeWord 2).toNat, (s.codeWord 2).toNat + 1])

/-- R133 MOV_MEM_REG: `13 AA AA dd`, `x[d] <- {mem[addr], mem[addr+1]}`; the index is checked before the address; a
destination of `ip` jumps. -/
def Obligations.MovMemRegRule : Prop :=
  ∀ s : State, s.Starts .movMemReg →
    (s.size ≤ s.pc + 2 → s.StepFaults (s.pc + 1) (.outOfBounds (s.pc + 1) .fetch (s.readReg .ip))) ∧
    (s.pc + 2 < s.size → s.size ≤ s.pc + 3 →
      s.StepFaults (s.pc + 3) (.outOfBounds (s.pc + 3) .fetch (s.readReg .ip))) ∧
    (s.pc + 3 < s.size → 12 ≤ (s.codeByte 3).toNat →
      s.StepFaults (s.pc + 4) (.unknownRegister (s.codeByte 3) (s.readReg .ip))) ∧
    (s.pc + 3 < s.size → (s.codeByte 3).toNat ≤ 11 → s.size ≤ (s.codeWord 1).toNat + 1 →
      s.StepFaults (s.pc + 4) (.outOfBounds (s.codeWord 1).toNat .dataRead (s.readReg .ip))) ∧
    (s.pc + 3 < s.size → (s.codeWord 1).toNat + 1 < s.size → ∀ d, Reg.ofIndex (s.codeByte 3) = some d →
      ∃ t, step s = .next t ∧
        t.readReg d = joinBytes (s.mem.read (s.codeWord 1).toNat) (s.mem.read ((s.codeWord 1).toNat + 1)) ∧
        (d ≠ .ip → t.pc = s.pc + 4) ∧ OnlyChanges s t [.ip, d] [])

/-- R150 ADD_REG_REG: `14 pp qq`, `acc <- (x[p] + x[q]) mod 65536` with no signal; both sources, `acc` and `ip` (read as
`A + 3`) among them, are read before `acc` is written. -/
def Obligations.AddRegRegRule : Prop :=
  ∀ s : State, s.Starts .addRegReg →
    (s.size ≤ s.pc + 1 → s.StepFaults (s.pc + 1) (.outOfBounds (s.pc + 1) .fetch (s.readReg .ip))) ∧
    (s.pc + 1 < s.size → s.size ≤ s.pc + 2 →
      s.StepFaults (s.pc + 2) (.outOfBounds (s.pc + 2) .fetch (s.readReg .ip))) ∧
    (s.pc + 2 < s.size → 12 ≤ (s.codeByte 1).toNat →
      s.StepFaults (s.pc + 3) (.unknownRegister (s.codeByte 1) (s.readReg .ip))) ∧
    (s.pc + 2 < s.size → (s.codeByte 1).toNat ≤ 11 → 12 ≤ (s.codeByte 2).toNat →
      s.StepFaults (s.pc + 3) (.unknownRegister (s.codeByte 2) (s.readReg .ip))) ∧
    (s.pc + 2 < s.size → ∀ p q, Reg.ofIndex (s.codeByte 1) = some p → Reg.ofIndex (s.codeByte 2) = some q →
      ∃ t, step s = .next t ∧
        (t.readReg .acc).toNat = ((s.sourceValue 3 p).toNat + (s.sourceValue 3 q).toNat) % 65536 ∧
        t.pc = s.pc + 3 ∧ OnlyChanges s t [.ip, .acc] [])

/-- R160 JMP_NOT_EQ: `15 LL LL AA AA`; both operands are always fetched; `ip <- addr` if the literal differs from `acc`
in any of the 16 bits, else `ip = A + 5`; nothing else changes and the target is not checked. -/
def Obligations.JmpNotEqRule : Prop :=
  ∀ s : State, s.Starts .jmpNotEq →
    (s.size ≤ s.pc + 2 → s.StepFaults (s.pc + 1) (.outOfBounds (s.pc + 1) .fetch (s.readReg .ip))) ∧
    (s.pc + 2 < s.size → s.size ≤ s.pc + 4 →
      s.StepFaults (s.pc + 3) (.outOfBounds (s.pc + 3) .fetch (s.readReg .ip))) ∧
    (s.pc + 4 < s.size → ∃ t, step s = .next t ∧
      (s.codeWord 1 ≠ s.readReg .acc → t.readReg .ip = s.codeWord 3) ∧
      (s.codeWord 1 = s.readReg .acc → t.pc = s.pc + 5) ∧ OnlyChanges s t [.ip] [])

/-- R170, R172 PSH_LIT: `17 LL LL`; the literal is written big-endian at the old `sp`, then `sp - 2`; it faults if
`sp < 2` or the slot is not inside memory, and then changes neither memory nor `sp`. In canonical memories. -/
def Obligations.PshLitRule : Prop :=
  ∀ s : State, s.Starts .pshLit → s.mem.wf = true →
    (s.size ≤ s.pc + 2 → s.StepFaults (s.pc + 1) (.outOfBounds (s.pc + 1) .fetch (s.readReg .ip))) ∧
    (s.pc + 2 < s.size → (s.sp < 2 ∨ s.size ≤ s.sp + 1) →
      s.StepFaults (s.pc + 3) (.outOfBounds s.sp .stackPush (s.readReg .ip))) ∧
    (s.pc + 2 < s.size → 2 ≤ s.sp → s.sp + 1 < s.size → ∃ t, step s = .next t ∧
      t.mem.read s.sp = hiByte (s.codeWord 1) ∧ t.mem.read (s.sp + 1) = loByte (s.codeWord 1) ∧
      t.sp = s.sp - 2 ∧ t.pc = s.pc + 3 ∧ OnlyChanges s t [.ip, .sp] [s.sp, s.sp + 1])

/-- R170, R173 PSH_REG: `18 rr`; the register is read before `sp` changes (`sp` pushes its old value, `ip` pushes
`A + 2`); the index is checked before the stack. In canonical memories. -/
def Obligations.PshRegRule : Prop :=
  ∀ s : State, s.Starts .pshReg → s.mem.wf = true →
    (s.size ≤ s.pc + 1 → s.StepFaults (s.pc + 1) (.outOfBounds (s.pc + 1) .fetch (s.readReg .ip))) ∧
    (s.pc + 1 < s.size → 12 ≤ (s.codeByte 1).toNat →
      s.StepFaults (s.pc + 2) (.unknownRegister (s.codeByte 1) (s.readReg .ip))) ∧
    (s.pc + 1 < s.size → (s.codeByte 1).toNat ≤ 11 → (s.sp < 2 ∨ s.size ≤ s.sp + 1) →
      s.StepFaults (s.pc + 2) (.outOfBounds s.sp .stackPush (s.readReg .ip))) ∧
    (s.pc + 1 < s.size → 2 ≤ s.sp → s.sp + 1 < s.size → ∀ r, Reg.ofIndex (s.codeByte 1) = some r →
      ∃ t, step s = .next t ∧ t.mem.read s.sp = hiByte (s.sourceValue 2 r) ∧
        t.mem.read (s.sp + 1) = loByte (s.sourceValue 2 r) ∧
        t.sp = s.sp - 2 ∧ t.pc = s.pc + 2 ∧ OnlyChanges s t [.ip, .sp] [s.sp, s.sp + 1])

/-- R171, R174 POP: `1A dd`; `sp + 2`, then the slot at the new `sp` goes to the destination, which for `sp` and `ip` is
the popped value; it faults if the slot is not inside memory; the index is checked before the stack. -/
def Obligations.PopRule : Prop :=
  ∀ s : State, s.Starts .pop →
    (s.size ≤ s.pc + 1 → s.StepFaults (s.pc + 1) (.outOfBounds (s.pc + 1) .fetch (s.readReg .ip))) ∧
    (s.pc + 1 < s.size → 12 ≤ (s.codeByte 1).toNat →
      s.StepFaults (s.pc + 2) (.unknownRegister (s.codeByte 1) (s.readReg .ip))) ∧
    (s.pc + 1 < s.size → (s.codeByte 1).toNat ≤ 11 → s.size ≤ s.sp + 3 →
      s.StepFaults (s.pc + 2) (.outOfBounds (s.sp + 2) .stackPop (s.readReg .ip))) ∧
    (s.pc + 1 < s.size → s.sp + 3 < s.size → ∀ d, Reg.ofIndex (s.codeByte 1) = some d →
      ∃ t, step s = .next t ∧ t.readReg d = joinBytes (s.mem.read (s.sp + 2)) (s.mem.read (s.sp + 3)) ∧
        (d ≠ .sp → t.sp = s.sp + 2) ∧ (d ≠ .ip → t.pc = s.pc + 2) ∧ OnlyChanges s t [.ip, .sp, d] [])

/-! ### Where each instruction completes, from any state: `exec` answers the state the rule gives -/

/-- R130, R131, R25: the two register moves complete whenever their operands name registers. -/
def Obligations.RegisterMovesComplete : Prop :=
  ∀ (s : State) (lit : Word) (src dst : Byte) (d : Reg), Reg.ofIndex dst = some d →
    (∃ t, exec (.movLitReg lit dst) s = .next t ∧ t.readReg d = lit ∧
      (d ≠ .ip → t.readReg .ip = s.readReg .ip + 4) ∧ OnlyChanges s t [.ip, d] []) ∧
    (∀ r, Reg.ofIndex src = some r → ∃ t, exec (.movRegReg src dst) s = .next t ∧ t.readReg d = s.sourceValue 3 r ∧
      (d ≠ .ip → t.readReg .ip = s.readReg .ip + 3) ∧ OnlyChanges s t [.ip, d] [])

/-- R132, R133: the two memory moves complete whenever their index names a register and `addr + 1 < MEMSIZE`. -/
def Obligations.MemoryMovesComplete : Prop :=
  ∀ (s : State) (idx : Byte) (addr : Word) (r : Reg), Reg.ofIndex idx = some r → addr.toNat + 1 < s.size →
    (s.mem.wf = true → ∃ t, exec (.movRegMem idx addr) s = .next t ∧
      t.mem.read addr.toNat = hiByte (s.sourceValue 4 r) ∧ t.mem.read (addr.toNat + 1) = loByte (s.sourceValue 4 r) ∧
      t.readReg .ip = s.readReg .ip + 4 ∧ OnlyChanges s t [.ip] [addr.toNat, addr.toNat + 1]) ∧
    (∃ t, exec (.movMemReg addr idx) s = .next t ∧
      t.readReg r = joinBytes (s.mem.read addr.toNat) (s.mem.read (addr.toNat + 1)) ∧
      (r ≠ .ip → t.readReg .ip = s.readReg .ip + 4) ∧ OnlyChanges s t [.ip, r] [])

/-- R150, R160: the addition completes whenever its operands name registers, the conditional jump always. -/
def Obligations.AddAndJumpComplete : Prop :=
  ∀ (s : State),
    (∀ (p q : Byte) (a b : Reg), Reg.ofIndex p = some a → Reg.ofIndex q = some b →
      ∃ t, exec (.addRegReg p q) s = .next t ∧ t.readReg .acc = s.sourceValue 3 a + s.sourceValue 3 b ∧
        t.readReg .ip = s.readReg .ip + 3 ∧ OnlyChanges s t [.ip, .acc] []) ∧
    (∀ lit addr : Word, ∃ t, exec (.jmpNotEq lit addr) s = .next t ∧
      t.readReg .ip = (if lit = s.readReg .acc then s.readReg .ip + 5 else addr) ∧ OnlyChanges s t [.ip] [])

/-- R170 to R174: the pushes complete whenever `sp >= 2` and the slot at `sp` is inside memory, the pop whenever the slot
at `sp + 2` is, their index naming a register. -/
def Obligations.StackInstructionsComplete : Prop :=
  ∀ (s : State),
    (∀ lit : Word, s.mem.wf = true → 2 ≤ s.sp → s.sp + 1 < s.size → ∃ t, exec (.pshLit lit) s = .next t ∧
      t.mem.read s.sp = hiByte lit ∧ t.mem.read (s.sp + 1) = loByte lit ∧ t.sp = s.sp - 2 ∧
      t.readReg .ip = s.readReg .ip + 3 ∧ OnlyChanges s t [.ip, .sp] [s.sp, s.sp + 1]) ∧
    (∀ (src : Byte) (r : Reg), Reg.ofIndex src = some r → s.mem.wf = true → 2 ≤ s.sp → s.sp + 1 < s.size →
      ∃ t, exec (.pshReg src) s = .next t ∧ t.mem.read s.sp = hiByte (s.sourceValue 2 r) ∧
        t.mem.read (s.sp + 1) = loByte (s.sourceValue 2 r) ∧ t.sp = s.sp - 2 ∧
        t.readReg .ip = s.readReg .ip + 2 ∧ OnlyChanges s t [.ip, .sp] [s.sp, s.sp + 1]) ∧
    (∀ (dst : Byte) (d : Reg), Reg.ofIndex dst = some d → s.sp + 3 < s.size →
      ∃ t, exec (.pop dst) s = .next t ∧ t.readReg d = joinBytes (s.mem.read (s.sp + 2)) (s.mem.read (s.sp + 3)) ∧
        (d ≠ .sp → t.sp = s.sp + 2) ∧ (d ≠ .ip → t.readReg .ip = s.readReg .ip + 2) ∧
        OnlyChanges s t [.ip, .sp, d] [])

/-! ### Where an executing instruction traps -/

/-- R114 phase 2, R212 item 4: the first register operand in fetch order that names no register is the one reported,
before any memory or stack check, and only `ip` has moved. -/
def Obligations.FirstBadRegisterIsReported : Prop :=
  ∀ (s : State) (i : Instr) (index : Byte), i.regOperands.find? (fun b => !namesRegister b) = some index →
    exec i s = .next ((s.advance i.length).raise (.unknownRegister index (s.readReg .ip)))

/-- R114 phase 3, R211, R212 item 5: with good register operands, an access that is not inside memory raises OutOfBounds
at its address, under its kind, and only `ip` has moved. -/
def Obligations.BadAccessIsReported : Prop :=
  ∀ (s : State) (idx : Byte) (addr lit : Word), idx.toNat ≤ 11 →
    (s.size ≤ addr.toNat + 1 →
      exec (.movRegMem idx addr) s =
        .next ((s.advance 4).raise (.outOfBounds addr.toNat .dataWrite (s.readReg .ip))) ∧
      exec (.movMemReg addr idx) s =
        .next ((s.advance 4).raise (.outOfBounds addr.toNat .dataRead (s.readReg .ip)))) ∧
    (s.sp < 2 ∨ s.size ≤ s.sp + 1 →
      exec (.pshLit lit) s = .next ((s.advance 3).raise (.outOfBounds s.sp .stackPush (s.readReg .ip))) ∧
      exec (.pshReg idx) s = .next ((s.advance 2).raise (.outOfBounds s.sp .stackPush (s.readReg .ip)))) ∧
    (s.size ≤ s.sp + 3 →
      exec (.pop idx) s = .next ((s.advance 2).raise (.outOfBounds (s.sp + 2) .stackPop (s.readReg .ip))))

/-! ### Frames: what an instruction leaves unchanged, whether it completes or faults -/

/-- The six forms that store nothing: every byte of memory, MEMSIZE and the launch parameters are unchanged, and every
register but `ip` and the destination (`acc` for the addition, `sp` too for the pop); the latch is unchanged, or it is
set and then every register but `ip` is unchanged. -/
def Obligations.FrameOfNonStoringInstructions : Prop :=
  ∀ (s t : State) (i : Instr),
    i.mnemonic ∈ [.movLitReg, .movRegReg, .movMemReg, .addRegReg, .jmpNotEq, .pop] → exec i s = .next t →
    RegsKept s t (.ip :: writtenRegs i) ∧ MemKept s t [] ∧ LaunchKept s t ∧
    (t.fault = s.fault ∨ (t.fault ≠ none ∧ RegsKept s t [.ip]))

/-- The three storing forms: MOV_REG_MEM stores to `addr` and `addr + 1`, the pushes to the old `sp` and `sp + 1`; every
other byte is unchanged, and every register but `ip` (and `sp` for the pushes). In canonical memories. -/
def Obligations.FrameOfStoringInstructions : Prop :=
  ∀ (s t : State), s.mem.wf = true →
    (∀ (src : Byte) (addr : Word), exec (.movRegMem src addr) s = .next t →
      RegsKept s t [.ip] ∧ MemKept s t [addr.toNat, addr.toNat + 1] ∧ LaunchKept s t ∧
      (t.fault = s.fault ∨ (t.fault ≠ none ∧ MemKept s t []))) ∧
    (∀ i : Instr, i.mnemonic ∈ [.pshLit, .pshReg] → exec i s = .next t →
      RegsKept s t [.ip, .sp] ∧ MemKept s t [s.sp, s.sp + 1] ∧ LaunchKept s t ∧
      (t.fault = s.fault ∨ (t.fault ≠ none ∧ RegsKept s t [.ip] ∧ MemKept s t [])))

/-- For the whole machine (from R23 and R25): a step that changes a register other than `ip` executed an instruction
that names it as its destination, or an addition and it is `acc`, or a stack instruction and it is `sp`. In particular
nothing changes `fp` (the spec's own inference in R23) or `r0`..`r7` implicitly. -/
def Obligations.OnlyWritersWriteRegisters : Prop :=
  ∀ (s t : State) (r : Reg), step s = .next t → t.readReg r ≠ s.readReg r → r ≠ .ip →
    ∃ i rest, decode s.config.opc s.code = .ok (i, rest) ∧ r ∈ writtenRegs i

/-! ### Control transfer and the whole-machine laws -/

/-- R162: with destination index 0 each of the four instructions ends with `ip` equal to the value it writes, not
advanced afterwards; the addition cannot jump. -/
def Obligations.WritingIndexZeroJumps : Prop :=
  ∀ (s : State) (lit addr : Word) (src p q : Byte) (r : Reg),
    (∃ t, exec (.movLitReg lit 0) s = .next t ∧ t.readReg .ip = lit ∧ OnlyChanges s t [.ip] []) ∧
    (Reg.ofIndex src = some r → ∃ t, exec (.movRegReg src 0) s = .next t ∧ t.readReg .ip = s.sourceValue 3 r ∧
      OnlyChanges s t [.ip] []) ∧
    (addr.toNat + 1 < s.size → ∃ t, exec (.movMemReg addr 0) s = .next t ∧
      t.readReg .ip = joinBytes (s.mem.read addr.toNat) (s.mem.read (addr.toNat + 1)) ∧ OnlyChanges s t [.ip] []) ∧
    (s.sp + 3 < s.size → ∃ t, exec (.pop 0) s = .next t ∧
      t.readReg .ip = joinBytes (s.mem.read (s.sp + 2)) (s.mem.read (s.sp + 3)) ∧ t.sp = s.sp + 2 ∧
      OnlyChanges s t [.ip, .sp] []) ∧
    (∀ t, exec (.addRegReg p q) s = .next t → t.readReg .ip = s.readReg .ip + 3)

/-- A target is not checked when it is written: the taken jump, and each of the four instructions with destination index
0, complete, and if the target is not below MEMSIZE it is the next step that raises OutOfBounds at its opcode fetch. The
spec's own inference (R161, which names R162; marked `[derived: from 40_step_and_fetch.md rule R110 and 10_state.md rule
R27]`). -/
def Obligations.TargetsAreCheckedByTheNextFetch : Prop :=
  ∀ (s : State) (target : Word), s.fault = none → s.size ≤ target.toNat →
    (∀ lit, lit ≠ s.readReg .acc → s.CompletesThenFaults (.jmpNotEq lit target) target) ∧
    s.CompletesThenFaults (.movLitReg target 0) target ∧
    (∀ src r, Reg.ofIndex src = some r → s.sourceValue 3 r = target →
      s.CompletesThenFaults (.movRegReg src 0) target) ∧
    (∀ addr : Word, addr.toNat + 1 < s.size → joinBytes (s.mem.read addr.toNat) (s.mem.read (addr.toNat + 1)) = target →
      s.CompletesThenFaults (.movMemReg addr 0) target) ∧
    (s.sp + 3 < s.size → joinBytes (s.mem.read (s.sp + 2)) (s.mem.read (s.sp + 3)) = target →
      s.CompletesThenFaults (.pop 0) target)

/-- A store is seen by the very next fetch, for each of the three storing instructions: it completes with `ip` after
itself, and wherever the bytes stored are among those the next step can fetch, that step fetches what was stored. The
spec's own inference (R62, marked `[derived: from rule R61 and 10_state.md rule R36]`). In canonical memories. -/
def Obligations.StoreIsSeenByTheNextFetch : Prop :=
  ∀ s : State, s.mem.wf = true →
    (∀ (src : Byte) (addr : Word) (r : Reg), Reg.ofIndex src = some r → addr.toNat + 1 < s.size →
      ∃ t, exec (.movRegMem src addr) s = .next t ∧ t.readReg .ip = s.readReg .ip + 4 ∧
        t.FetchesStored addr.toNat (s.sourceValue 4 r)) ∧
    (∀ lit : Word, 2 ≤ s.sp → s.sp + 1 < s.size →
      ∃ t, exec (.pshLit lit) s = .next t ∧ t.readReg .ip = s.readReg .ip + 3 ∧ t.FetchesStored s.sp lit) ∧
    (∀ (src : Byte) (r : Reg), Reg.ofIndex src = some r → 2 ≤ s.sp → s.sp + 1 < s.size →
      ∃ t, exec (.pshReg src) s = .next t ∧ t.readReg .ip = s.readReg .ip + 2 ∧
        t.FetchesStored s.sp (s.sourceValue 2 r))

/-- R134: MOV_REG_MEM followed by MOV_MEM_REG at the same address leaves the value in the second register; a source of
`ip` stands for the value the first instruction read. In canonical memories. -/
def Obligations.MemoryRoundTrip : Prop :=
  ∀ (s : State) (src dst : Byte) (addr : Word) (r d : Reg), s.mem.wf = true →
    Reg.ofIndex src = some r → Reg.ofIndex dst = some d → addr.toNat + 1 < s.size →
    ∃ t u, exec (.movRegMem src addr) s = .next t ∧ exec (.movMemReg addr dst) t = .next u ∧
      u.readReg d = s.sourceValue 4 r

/-- Pushes followed by the same number of pops: the pops do not fault, the popped values are the pushed ones in reverse
order, and `sp` returns to its value before; so does every other register. The law of R176, which the spec marks
`[derived: from rule R170 and rule R171]`, over its micro-operations. In canonical memories. -/
def Obligations.StackLaw : Prop :=
  ∀ (s t : State) (insn : Word) (vs : List Word), s.mem.wf = true → s.pushAll insn vs = .ok t →
    ∃ u, t.popMany insn vs.length = .ok (vs.reverse, u) ∧ u.sp = s.sp ∧ u.regs = s.regs ∧ u.mem = t.mem

/-- After `k` pushes `sp` is `2k` lower, the value pushed last is the slot at `sp + 2`, and from `sp = T` at most `T / 2`
values can be pushed: the spec's own inference (R175, marked `[derived: from rule R170]`). In canonical memories. -/
def Obligations.StackDepth : Prop :=
  ∀ (s t : State) (insn : Word) (vs : List Word), s.mem.wf = true → s.pushAll insn vs = .ok t →
    t.sp + 2 * vs.length = s.sp ∧ vs.length ≤ s.sp / 2 ∧
    ∀ v, vs.getLast? = some v → joinBytes (t.mem.read (t.sp + 2)) (t.mem.read (t.sp + 3)) = v

/-! ### Reset, launch state and invariants -/

/-- R37, R240: after RESET(size), under any launch parameters, every register and every byte of memory is zero, MEMSIZE is
`size` and no fault is latched. -/
def Obligations.ResetState : Prop :=
  ∀ (cfg : Config) (size : Word),
    (∀ r, (State.launch cfg size).readReg r = 0) ∧ (∀ a, (State.launch cfg size).mem.read a = 0) ∧
    (State.launch cfg size).memSize = size ∧ (State.launch cfg size).fault = none

/-- The invariant holds after RESET of any size under any launch parameters, `State.reset` among them (whose size 65535
is the model's choice, log entry 2). -/
def Obligations.ResetMeetsInv : Prop :=
  (∀ (cfg : Config) (size : Word), (State.launch cfg size).Inv) ∧ State.reset.Inv

/-- Every step keeps the invariant, from every state that meets it: memory stays canonical and below MEMSIZE, and a fault
that gets latched is one the rules allow (R30, R50, R66, R210, R211). -/
def Obligations.StepKeepsInv : Prop := ∀ s t : State, s.Inv → step s = .next t → t.Inv

/-- Every host command keeps the invariant, the refused and the failing ones too (R190 to R198). -/
def Obligations.CommandsKeepInv : Prop := ∀ (s : State) (c : Command), s.Inv → (s.command c).1.Inv

/-- R31: MEMSIZE is set by RESET and LOAD and by nothing else, and is at most 65535, so address 0xFFFF is never valid: a
read and a write of one or of two bytes there raise OutOfBounds. -/
def Obligations.MemSizeIsSetByResetAndLoadOnly : Prop :=
  (∀ (s : State) (n : Nat), n ≤ 65535 → (s.command (.reset n)).1.size = n) ∧
  (∀ (s : State) (p : List Byte), 2 ≤ p.length → p.length ≤ 65535 → (s.command (.load p)).1.size = p.length) ∧
  (∀ (s : State) (c : Command), (∀ n, c ≠ .reset n) → (∀ p, c ≠ .load p) →
    (s.command c).1.memSize = s.memSize) ∧
  (∀ s t : State, step s = .next t → t.memSize = s.memSize) ∧
  (∀ (s : State) (b : Byte) (v : Word) (kind : AccessKind) (insn : Word),
    s.memRead1 0xFFFF kind insn = .error (.outOfBounds 0xFFFF kind insn) ∧
    s.memRead2 0xFFFF kind insn = .error (.outOfBounds 0xFFFF kind insn) ∧
    s.memWrite1 0xFFFF b kind insn = .error (.outOfBounds 0xFFFF kind insn) ∧
    s.memWrite2 0xFFFF v kind insn = .error (.outOfBounds 0xFFFF kind insn))

/-- R38: no step changes the launch parameters; that no host command does either is the model's choice (log entry 8). -/
def Obligations.LaunchParametersNeverChange : Prop :=
  (∀ s t : State, step s = .next t → t.config = s.config) ∧ ∀ (s : State) (c : Command), (s.command c).1.config = s.config

/-! ### The host interface (45_host_interface.md) -/

/-- R191: RESET(size) for a size up to 65535; a larger one is refused; after RESET(0) the first step raises
OutOfBounds(0, fetch). -/
def Obligations.ResetCommandRule : Prop :=
  ∀ (s : State) (n : Nat),
    (n ≤ 65535 → ∃ t, s.command (.reset n) = (t, .ok) ∧ t.size = n ∧ (∀ r, t.readReg r = 0) ∧
      (∀ a, t.mem.read a = 0) ∧ t.fault = none ∧ (n = 0 → t.StepFaults 0 (.outOfBounds 0 .fetch 0))) ∧
    (65535 < n → ∃ e, s.command (.reset n) = (s, .error e))

/-- R192: LOAD(program) for 2 to 65535 bytes makes memory exactly the program and sets `sp` and `fp` to `n - 2`; it
changes no other register and not the latch; any other length is refused with no change. -/
def Obligations.LoadCommandRule : Prop :=
  ∀ (s : State) (p : List Byte),
    (2 ≤ p.length → p.length ≤ 65535 → ∃ t, s.command (.load p) = (t, .ok) ∧ t.size = p.length ∧
      (∀ a, t.mem.read a = p.getD a 0) ∧ t.sp = p.length - 2 ∧ (t.readReg .fp).toNat = p.length - 2 ∧
      RegsKept s t [.sp, .fp] ∧ t.fault = s.fault) ∧
    (p.length < 2 ∨ 65535 < p.length → ∃ e, s.command (.load p) = (s, .error e))

/-- The state after RESET(size) and LOAD of a program of 2 to 65535 bytes, the launch state of a run, whatever the size
was: the spec's own inference (R244, marked `[derived: from rule R240 and rule R242]`). -/
def Obligations.BootState : Prop :=
  ∀ (cfg : Config) (size : Word) (p : List Byte), 2 ≤ p.length → p.length ≤ 65535 →
    ∃ t, t = State.boot cfg size p ∧ t.sp = p.length - 2 ∧ (t.readReg .fp).toNat = p.length - 2 ∧
      (∀ r, r ≠ .sp → r ≠ .fp → t.readReg r = 0) ∧ t.size = p.length ∧ (∀ a, t.mem.read a = p.getD a 0) ∧
      t.fault = none

/-- R115: NEXT_EQUALS compares the byte at `ip` and changes nothing; with `ip >= MEMSIZE` it fails with
OutOfBounds(ip, peek), which is not latched. -/
def Obligations.NextEqualsRule : Prop :=
  ∀ (s : State) (v : Byte),
    (s.size ≤ s.pc → s.command (.nextEquals v) = (s, .error (.outOfBounds (some (s.pc, .peek))))) ∧
    (s.pc < s.size → ∃ b, s.command (.nextEquals v) = (s, .truth b) ∧ (b = true ↔ s.mem.read s.pc = v))

/-- R194, R195: REG_GET reads and REG_SET writes the register named, by name or by index alike, and nothing else
changes; an unknown name or index fails with UnknownRegister and changes nothing. -/
def Obligations.RegGetSetRule : Prop :=
  (∀ (s : State) (r : Reg) (v : Word) (sel : RegSelector), sel = .name r.name ∨ sel = .index r.index.toNat →
    s.command (.regGet sel) = (s, .value (s.readReg r)) ∧
    ∃ t, s.command (.regSet sel v) = (t, .ok) ∧ t.readReg r = v ∧ OnlyChanges s t [r] []) ∧
  (∀ (s : State) (v : Word) (sel : RegSelector),
    (∀ r : Reg, sel ≠ .name r.name ∧ sel ≠ .index r.index.toNat) →
    s.command (.regGet sel) = (s, .error .unknownRegister) ∧
    s.command (.regSet sel v) = (s, .error .unknownRegister))

/-- R197: MEM_READ(addr, n) returns the `n` bytes from `addr` on and changes nothing; it fails if `addr + n > MEMSIZE`.
The answer's error carries no address (log entry 11). -/
def Obligations.MemReadCommandRule : Prop :=
  ∀ (s : State) (addr n : Nat),
    (addr + n ≤ s.size → ∃ bs, s.command (.memRead addr n) = (s, .bytes bs) ∧ bs.length = n ∧
      ∀ k, k < n → bs[k]? = some (s.mem.read (addr + k))) ∧
    (s.size < addr + n → s.command (.memRead addr n) = (s, .error (.outOfBounds none)))

/-- R116: each STEP reports `ok`, and no fault is latched after it, or a fault, which is latched after it; if one was
latched before, nothing changes and that one is reported again. The report is read off the latch (log entry 4). -/
def Obligations.StepCommandReports : Prop :=
  ∀ (s : State), ∃ t, step s = .next t ∧
    ((t.fault = none ∧ s.command .step = (t, .ok)) ∨ (∃ f, t.fault = some f ∧ s.command .step = (t, .fault f))) ∧
    (∀ f, s.fault = some f → s.command .step = (s, .fault f))

/-- R226, R198 (b): an error of a host command changes no state and does not touch the latch, and has the name and code of
a fault: UnknownRegister from REG_GET and REG_SET, OutOfBounds from NEXT_EQUALS and MEM_READ, one of the three from a
refused RESET or LOAD (which one is a free value, log entry 17); STEP answers no such error. -/
def Obligations.HostErrorsChangeNothing : Prop :=
  (∀ (s t : State) (c : Command) (e : CommandError), s.command c = (t, .error e) →
    t = s ∧
    match c with
    | .regGet _ => ∀ index insn, e.name = .unknownRegister ∧ e.code = (Fault.unknownRegister index insn).code
    | .regSet _ _ => ∀ index insn, e.name = .unknownRegister ∧ e.code = (Fault.unknownRegister index insn).code
    | .nextEquals _ => ∀ addr kind insn, e.name = .outOfBounds ∧ e.code = (Fault.outOfBounds addr kind insn).code
    | .memRead _ _ => ∀ addr kind insn, e.name = .outOfBounds ∧ e.code = (Fault.outOfBounds addr kind insn).code
    | .reset _ => e.code = 1 ∨ e.code = 2 ∨ e.code = 3
    | .load _ => e.code = 1 ∨ e.code = 2 ∨ e.code = 3
    | .step => False) ∧
  ∀ f : Fault, f.code =
    match f with
    | .unknownRegister _ _ => 1
    | .outOfBounds _ _ _ => 2
    | .illegalOpcode _ _ => 3

/-- R117: the driver's loop: a latched fault or an `ip` outside memory is FAULTED, tested first; then the sentinel at
`ip` is HALTED; else one step is made. It stops in a state that is not running, and goes on with the step's state. The
budget of steps the loop runs under is the model's (log entry 15). -/
def Obligations.RunLoopRule : Prop :=
  ∀ (s : State),
    (s.status = .faulted ↔ s.fault ≠ none ∨ s.size ≤ s.pc) ∧
    (s.status = .halted ↔ s.fault = none ∧ s.pc < s.size ∧ s.mem.read s.pc = s.config.haltSentinel) ∧
    (∀ fuel, s.status ≠ .running → State.drive fuel s = s) ∧
    (∀ fuel t, s.status = .running → step s = .next t → State.drive (fuel + 1) s = State.drive fuel t)
end

