-- ==== Sys2Proof/Laws/State.lean ====
section
/-! SUPPORT. One lemma per field per update of State, and the two register laws (R22, R25), so that no later proof
unfolds a record update. -/

namespace Sys2Proof.Machine

/-! ### Registers -/

/-- A register read after a register write (R22, R25): the value written, or what was there. -/
theorem RegFile.get_set (f : RegFile) (r q : Reg) (v : Word) :
    (f.set r v).get q = if q = r then v else f.get q := by
  cases r <;> cases q <;> rfl

/-- Two register files that read alike are equal. -/
theorem RegFile.ext_get {f g : RegFile} (h : ∀ r, f.get r = g.get r) : f = g := by
  cases f; cases g
  simp only [RegFile.mk.injEq]
  exact ⟨h .ip, h .acc, h .r0, h .r1, h .r2, h .r3, h .r4, h .r5, h .r6, h .r7, h .sp, h .fp⟩

/-- Writing a register with what it holds changes nothing. -/
theorem RegFile.set_get_self (f : RegFile) (r : Reg) : f.set r (f.get r) = f := by
  cases r <;> rfl

@[simp] theorem RegFile.get_zero (r : Reg) : RegFile.zero.get r = 0 := by cases r <;> rfl

/-! ### writeReg -/

@[simp] theorem State.readReg_writeReg (s : State) (r q : Reg) (v : Word) :
    (s.writeReg r v).readReg q = if q = r then v else s.readReg q := RegFile.get_set s.regs r q v

@[simp] theorem State.writeReg_mem (s : State) (r : Reg) (v : Word) : (s.writeReg r v).mem = s.mem := rfl
@[simp] theorem State.writeReg_memSize (s : State) (r : Reg) (v : Word) : (s.writeReg r v).memSize = s.memSize := rfl
@[simp] theorem State.writeReg_fault (s : State) (r : Reg) (v : Word) : (s.writeReg r v).fault = s.fault := rfl
@[simp] theorem State.writeReg_config (s : State) (r : Reg) (v : Word) : (s.writeReg r v).config = s.config := rfl

/-! ### advance -/

@[simp] theorem State.readReg_advance (s : State) (n : Nat) (q : Reg) :
    (s.advance n).readReg q = if q = .ip then s.readReg .ip + BitVec.ofNat 16 n else s.readReg q :=
  State.readReg_writeReg s .ip q _

@[simp] theorem State.advance_mem (s : State) (n : Nat) : (s.advance n).mem = s.mem := rfl
@[simp] theorem State.advance_memSize (s : State) (n : Nat) : (s.advance n).memSize = s.memSize := rfl
@[simp] theorem State.advance_fault (s : State) (n : Nat) : (s.advance n).fault = s.fault := rfl
@[simp] theorem State.advance_config (s : State) (n : Nat) : (s.advance n).config = s.config := rfl

/-- Two advances are one (R111: `fetch16()` advances as two calls of `fetch()` do). -/
theorem State.advance_advance (s : State) (m n : Nat) : (s.advance m).advance n = s.advance (m + n) := by
  simp [State.advance, State.writeReg, State.readReg, RegFile.set, RegFile.get, BitVec.ofNat_add, BitVec.add_assoc]

/-- Inside memory an advance of `ip` is exact integer addition (R28). -/
theorem State.advance_pc {s : State} {n : Nat} (h : s.pc + n ≤ s.size) : (s.advance n).pc = s.pc + n := by
  have := s.memSize.isLt
  simp only [State.pc, State.size, State.readReg_advance, if_true, BitVec.toNat_add, BitVec.toNat_ofNat] at *
  omega

/-- An advance changes `ip` only (R110, R111). -/
theorem State.advance_onlyChanges (s : State) (n : Nat) : OnlyChanges s (s.advance n) [.ip] [] := by
  refine ⟨fun r hr => ?_, fun _ _ => rfl, ⟨rfl, rfl⟩, rfl⟩
  have : r ≠ .ip := by simpa using hr
  simp [this]

/-! ### raise -/

@[simp] theorem State.readReg_raise (s : State) (f : Fault) (q : Reg) : (s.raise f).readReg q = s.readReg q := rfl
@[simp] theorem State.raise_regs (s : State) (f : Fault) : (s.raise f).regs = s.regs := rfl
@[simp] theorem State.raise_mem (s : State) (f : Fault) : (s.raise f).mem = s.mem := rfl
@[simp] theorem State.raise_memSize (s : State) (f : Fault) : (s.raise f).memSize = s.memSize := rfl
@[simp] theorem State.raise_fault (s : State) (f : Fault) : (s.raise f).fault = some f := rfl
@[simp] theorem State.raise_config (s : State) (f : Fault) : (s.raise f).config = s.config := rfl

/-! ### A state with some fields replaced -/

@[simp] theorem State.get_regs (s : State) (q : Reg) : s.regs.get q = s.readReg q := rfl
@[simp] theorem State.readReg_mk (regs : RegFile) (mem : Memory) (size : Word) (f : Option Fault) (cfg : Config)
    (q : Reg) : State.readReg ⟨regs, mem, size, f, cfg⟩ q = regs.get q := rfl

/-! ### launch -/

@[simp] theorem State.readReg_launch (cfg : Config) (n : Word) (q : Reg) : (State.launch cfg n).readReg q = 0 :=
  RegFile.get_zero q
@[simp] theorem State.launch_mem (cfg : Config) (n : Word) : (State.launch cfg n).mem = [] := rfl
@[simp] theorem State.launch_memSize (cfg : Config) (n : Word) : (State.launch cfg n).memSize = n := rfl
@[simp] theorem State.launch_fault (cfg : Config) (n : Word) : (State.launch cfg n).fault = none := rfl
@[simp] theorem State.launch_config (cfg : Config) (n : Word) : (State.launch cfg n).config = cfg := rfl

/-! ### The frame predicates of Safety.lean -/

theorem RegsKept.mono {s t : State} {l l' : List Reg} (h : RegsKept s t l) (hl : ∀ r ∈ l, r ∈ l') : RegsKept s t l' :=
  fun r hr => h r fun hr' => hr (hl r hr')

/-- The advance of `ip` and the write of one register change nothing else. -/
theorem State.writeReg_advance_onlyChanges {s : State} {n : Nat} {r : Reg} {v : Word} :
    OnlyChanges s ((s.advance n).writeReg r v) [.ip, r] [] := by
  refine ⟨fun q hq => ?_, fun _ _ => rfl, ⟨rfl, rfl⟩, rfl⟩
  simp only [List.mem_cons, List.not_mem_nil, or_false, not_or] at hq
  simp [hq]

/-- A fault raised after the advance of `ip` changes nothing else but the latch (R118). -/
theorem State.raise_advance_kept {s : State} {n : Nat} {f : Fault} :
    RegsKept s ((s.advance n).raise f) [.ip] ∧ MemKept s ((s.advance n).raise f) [] ∧
      LaunchKept s ((s.advance n).raise f) :=
  ⟨(State.advance_onlyChanges s n).1, fun _ _ => rfl, rfl, rfl⟩

theorem State.raise_advance_faultedTo {s : State} {n : Nat} {f : Fault} (h : s.pc + n ≤ s.size) :
    s.FaultedTo ((s.advance n).raise f) (s.pc + n) f :=
  ⟨State.advance_pc h, rfl, State.raise_advance_kept⟩

end Sys2Proof.Machine
end

