-- ==== Sys2Proof/Laws/Memory.lean ====
section
/-! SUPPORT. The laws of memory: a read after a write, and that every memory operation keeps the canonical form. -/

namespace Sys2Proof.Machine

@[simp] theorem Memory.read_nil (a : Nat) : Memory.read [] a = Memory.unlisted := rfl

/-- A canonical memory listed from `lo` on reads as unlisted below `lo`. -/
theorem Memory.read_of_lt {m : Memory} {lo a : Nat} (h : Memory.wfFrom lo m = true) (ha : a < lo) :
    m.read a = Memory.unlisted := by
  induction m generalizing lo with
  | nil => rfl
  | cons c rest ih =>
    simp only [Memory.wfFrom, Bool.and_eq_true, decide_eq_true_eq] at h
    have hne : c.1 ≠ a := by omega
    simp only [Memory.read, hne, if_false]
    exact ih h.2 (by omega)

/-- A weaker bound still holds. -/
theorem Memory.wfFrom_mono {m : Memory} {lo lo' : Nat} (h : Memory.wfFrom lo m = true) (hl : lo' ≤ lo) :
    Memory.wfFrom lo' m = true := by
  cases m with
  | nil => rfl
  | cons c rest =>
    simp only [Memory.wfFrom, Bool.and_eq_true, decide_eq_true_eq] at h ⊢
    exact ⟨⟨by omega, h.1.2⟩, h.2⟩

/-- What `Memory.cons` reads as, over a rest listed above its address. -/
theorem Memory.read_cons {a : Nat} {b : Byte} {rest : Memory} (h : Memory.wfFrom (a + 1) rest = true) (x : Nat) :
    (Memory.cons a b rest).read x = if x = a then b else rest.read x := by
  unfold Memory.cons
  by_cases hb : b = Memory.unlisted
  · by_cases hx : x = a
    · simp [hb, hx, Memory.read_of_lt h (Nat.lt_succ_self a)]
    · simp [hb, hx]
  · by_cases hx : x = a
    · simp [hb, hx, Memory.read]
    · simp [hb, hx, Memory.read, Ne.symm hx]

/-- `Memory.cons` keeps the canonical form. -/
theorem Memory.wfFrom_cons {a lo : Nat} {b : Byte} {rest : Memory} (h : Memory.wfFrom (a + 1) rest = true)
    (hl : lo ≤ a) : Memory.wfFrom lo (Memory.cons a b rest) = true := by
  unfold Memory.cons
  split
  · exact Memory.wfFrom_mono h (by omega)
  · next hb => simp [Memory.wfFrom, hb, h, hl]

/-- A write keeps the canonical form, from any lower bound not above its address. -/
theorem Memory.wfFrom_write {m : Memory} {lo a : Nat} (b : Byte) (h : Memory.wfFrom lo m = true) (hl : lo ≤ a) :
    Memory.wfFrom lo (m.write a b) = true := by
  induction m generalizing lo with
  | nil => exact Memory.wfFrom_cons rfl hl
  | cons c rest ih =>
    have h' := h
    simp only [Memory.wfFrom, Bool.and_eq_true, decide_eq_true_eq] at h'
    simp only [Memory.write]
    split
    · exact Memory.wfFrom_cons (by simp [Memory.wfFrom, h'.1.2, h'.2]; omega) hl
    · split
      · next heq => exact Memory.wfFrom_cons (heq ▸ h'.2) hl
      · simp only [Memory.wfFrom, Bool.and_eq_true, decide_eq_true_eq]
        exact ⟨h'.1, ih h'.2 (by omega)⟩

/-- A write keeps the canonical form. -/
theorem Memory.wf_write {m : Memory} (a : Nat) (b : Byte) (h : m.wf = true) : (m.write a b).wf = true :=
  Memory.wfFrom_write b h (Nat.zero_le a)

/-- A read after a write (R53, R61): the byte written at its address, what was there elsewhere. -/
theorem Memory.read_write_from {m : Memory} {lo : Nat} (a : Nat) (b : Byte) (h : Memory.wfFrom lo m = true) (x : Nat) :
    (m.write a b).read x = if x = a then b else m.read x := by
  induction m generalizing lo with
  | nil => exact Memory.read_cons rfl x
  | cons c rest ih =>
    have h' := h
    simp only [Memory.wfFrom, Bool.and_eq_true, decide_eq_true_eq] at h'
    simp only [Memory.write]
    split
    · exact Memory.read_cons (by simp [Memory.wfFrom, h'.1.2, h'.2]; omega) x
    · split
      · next heq =>
        rw [Memory.read_cons (heq ▸ h'.2)]
        by_cases hx : x = a
        · simp [hx]
        · have : c.1 ≠ x := by omega
          simp [hx, Memory.read, this]
      · next hlt hne =>
        simp only [Memory.read, ih h'.2]
        by_cases hx : c.1 = x
        · have : x ≠ a := by omega
          simp [hx, this]
        · simp [hx]

/-- A read after a write to a canonical memory (R53, R61). -/
theorem Memory.read_write {m : Memory} (h : m.wf = true) (a : Nat) (b : Byte) (x : Nat) :
    (m.write a b).read x = if x = a then b else m.read x := Memory.read_write_from a b h x

@[simp] theorem Memory.below_nil (n : Nat) : Memory.below [] n = true := rfl

theorem Memory.below_iff {m : Memory} {n : Nat} : m.below n = true ↔ ∀ c ∈ m, c.1 < n := by
  simp [Memory.below]

/-- `Memory.cons` lists only its own address and the rest's. -/
theorem Memory.below_cons {a n : Nat} {b : Byte} {rest : Memory} (ha : a < n) (h : rest.below n = true) :
    (Memory.cons a b rest).below n = true := by
  unfold Memory.cons
  split
  · exact h
  · rw [Memory.below_iff] at h ⊢
    intro c hc
    rcases List.mem_cons.mp hc with rfl | hc
    · exact ha
    · exact h c hc

/-- A write below the bound lists nothing at or above it. -/
theorem Memory.below_write {m : Memory} {a n : Nat} (b : Byte) (ha : a < n) (h : m.below n = true) :
    (m.write a b).below n = true := by
  induction m with
  | nil => exact Memory.below_cons ha rfl
  | cons c rest ih =>
    rw [Memory.below_iff] at h
    have hr : Memory.below rest n = true := Memory.below_iff.mpr fun d hd => h d (List.mem_cons_of_mem c hd)
    simp only [Memory.write]
    split
    · exact Memory.below_cons ha (Memory.below_iff.mpr h)
    · split
      · exact Memory.below_cons ha hr
      · rw [Memory.below_iff]
        intro d hd
        rcases List.mem_cons.mp hd with rfl | hd
        · exact h _ (List.mem_cons_self ..)
        · exact (Memory.below_iff.mp (ih hr)) d hd

/-- The memory of a list of bytes is canonical from its first address on. -/
theorem Memory.wfFrom_ofBytesAt (a : Nat) (bs : List Byte) : Memory.wfFrom a (Memory.ofBytesAt a bs) = true := by
  induction bs generalizing a with
  | nil => rfl
  | cons b rest ih => exact Memory.wfFrom_cons (ih (a + 1)) (Nat.le_refl a)

/-- The memory LOAD installs is canonical (R192). -/
theorem Memory.wf_ofBytesAt (a : Nat) (bs : List Byte) : (Memory.ofBytesAt a bs).wf = true :=
  Memory.wfFrom_mono (Memory.wfFrom_ofBytesAt a bs) (Nat.zero_le a)

/-- The memory LOAD installs lists nothing beyond the program (R192). -/
theorem Memory.below_ofBytesAt (a n : Nat) (bs : List Byte) (h : a + bs.length ≤ n) :
    (Memory.ofBytesAt a bs).below n = true := by
  induction bs generalizing a with
  | nil => rfl
  | cons b rest ih =>
    simp only [List.length_cons] at h
    exact Memory.below_cons (by omega) (ih (a + 1) (by omega))

/-- The memory LOAD installs reads as the program (R192). -/
theorem Memory.read_ofBytesAt (a k : Nat) (bs : List Byte) :
    (Memory.ofBytesAt a bs).read (a + k) = bs.getD k Memory.unlisted := by
  induction bs generalizing a k with
  | nil => rfl
  | cons b rest ih =>
    rw [Memory.ofBytesAt, Memory.read_cons (Memory.wfFrom_ofBytesAt (a + 1) rest)]
    cases k with
    | zero => simp
    | succ k =>
      have := ih (a + 1) k
      rw [show a + 1 + k = a + (k + 1) by omega] at this
      simp [this]

/-- The memory of the reset state is canonical. -/
theorem reset_mem_wf : State.reset.mem.wf = true := rfl

end Sys2Proof.Machine
end

