-- ==== Sys2Proof/Laws/Ops.lean ====
section
/-! SUPPORT. For each shared operation, what it answers, said once: the provers cite these lemmas instead of unfolding
the operation. -/

namespace Sys2Proof.Machine

/-! ### Operands -/

/-- An index of 11 or less names a register (R21). -/
theorem Reg.ofIndex_isSome {i : Byte} : (Reg.ofIndex i).isSome = true ↔ i.toNat ≤ 11 := by
  rw [Reg.ofIndex, Reg.atIndex, isSome_getElem?]
  simp [allRegs]
  omega

/-- An index of 12 or more names no register (R21, R88). -/
theorem Reg.ofIndex_eq_none {i : Byte} : Reg.ofIndex i = none ↔ 12 ≤ i.toNat := by
  rw [← Option.not_isSome_iff_eq_none, Reg.ofIndex_isSome]
  omega

/-- A register's index names it (R21). -/
@[simp] theorem Reg.ofIndex_index (r : Reg) : Reg.ofIndex r.index = some r := by cases r <;> rfl

/-- Only a register's own index names it (R20: no aliases). -/
theorem Reg.eq_index_of_ofIndex {i : Byte} {r : Reg} (h : Reg.ofIndex i = some r) : i = r.index := by
  revert i r
  decide

/-- The register operand check: the register named, or UnknownRegister for an index of 12 or more (R24, R25). -/
theorem operandReg_ok {insn : Word} {i : Byte} {r : Reg} : operandReg insn i = .ok r ↔ Reg.ofIndex i = some r := by
  unfold operandReg
  cases Reg.ofIndex i <;> simp

theorem operandReg_error {insn : Word} {i : Byte} {f : Fault} :
    operandReg insn i = .error f ↔ 12 ≤ i.toNat ∧ f = .unknownRegister i insn := by
  rw [← Reg.ofIndex_eq_none]
  unfold operandReg
  cases Reg.ofIndex i <;> simp [eq_comm]

/-! ### The address translator -/

/-- The bound check of an access of `n` bytes at `a`, in integer arithmetic (R50, R54). -/
theorem State.inBounds_iff {s : State} {a n : Nat} : s.inBounds a n = true ↔ a + n ≤ s.memSize.toNat := by
  simp [State.inBounds]

/-- What a checked access answers. -/
theorem checked_ok {α : Type} {p : Bool} {x y : α} {f : Fault} :
    (if p = true then Except.ok x else Except.error f) = Except.ok y ↔ p = true ∧ y = x := by
  cases p <;> simp [eq_comm]

theorem checked_error {α : Type} {p : Bool} {x : α} {f g : Fault} :
    (if p = true then Except.ok x else Except.error f) = Except.error g ↔ ¬ p = true ∧ g = f := by
  cases p <;> simp [eq_comm]

theorem State.memRead1_ok {s : State} {a : Nat} {k : AccessKind} {insn : Word} {b : Byte} :
    s.memRead1 a k insn = .ok b ↔ a < s.memSize.toNat ∧ b = s.mem.read a := by
  rw [State.memRead1, checked_ok, State.inBounds_iff, Nat.succ_le_iff]

theorem State.memRead1_error {s : State} {a : Nat} {k : AccessKind} {insn : Word} {f : Fault} :
    s.memRead1 a k insn = .error f ↔ s.memSize.toNat ≤ a ∧ f = .outOfBounds a k insn := by
  rw [State.memRead1, checked_error, State.inBounds_iff, Nat.not_le, Nat.lt_succ_iff]

theorem State.memRead2_ok {s : State} {a : Nat} {k : AccessKind} {insn v : Word} :
    s.memRead2 a k insn = .ok v ↔ a + 1 < s.memSize.toNat ∧ v = joinBytes (s.mem.read a) (s.mem.read (a + 1)) := by
  rw [State.memRead2, checked_ok, State.inBounds_iff, Nat.succ_le_iff]

theorem State.memRead2_error {s : State} {a : Nat} {k : AccessKind} {insn : Word} {f : Fault} :
    s.memRead2 a k insn = .error f ↔ s.memSize.toNat ≤ a + 1 ∧ f = .outOfBounds a k insn := by
  rw [State.memRead2, checked_error, State.inBounds_iff, Nat.not_le, Nat.lt_succ_iff]

theorem State.memWrite1_ok {s t : State} {a : Nat} {b : Byte} {insn : Word} {k : AccessKind} :
    s.memWrite1 a b k insn = .ok t ↔ a < s.memSize.toNat ∧ t = { s with mem := s.mem.write a b } := by
  rw [State.memWrite1, checked_ok, State.inBounds_iff, Nat.succ_le_iff]

theorem State.memWrite1_error {s : State} {a : Nat} {b : Byte} {insn : Word} {k : AccessKind} {f : Fault} :
    s.memWrite1 a b k insn = .error f ↔ s.memSize.toNat ≤ a ∧ f = .outOfBounds a k insn := by
  rw [State.memWrite1, checked_error, State.inBounds_iff, Nat.not_le, Nat.lt_succ_iff]

theorem State.memWrite2_ok {s t : State} {a : Nat} {v insn : Word} {k : AccessKind} :
    s.memWrite2 a v k insn = .ok t ↔
      a + 1 < s.memSize.toNat ∧ t = { s with mem := (s.mem.write a (hiByte v)).write (a + 1) (loByte v) } := by
  rw [State.memWrite2, checked_ok, State.inBounds_iff, Nat.succ_le_iff]

theorem State.memWrite2_error {s : State} {a : Nat} {v insn : Word} {k : AccessKind} {f : Fault} :
    s.memWrite2 a v k insn = .error f ↔ s.memSize.toNat ≤ a + 1 ∧ f = .outOfBounds a k insn := by
  rw [State.memWrite2, checked_error, State.inBounds_iff, Nat.not_le, Nat.lt_succ_iff]

/-- The memory a 16-bit write leaves, byte by byte (R57, R58). -/
theorem Memory.read_write2 {m : Memory} (h : m.wf = true) (a : Nat) (v : Word) (x : Nat) :
    ((m.write a (hiByte v)).write (a + 1) (loByte v)).read x =
      if x = a then hiByte v else if x = a + 1 then loByte v else m.read x := by
  rw [Memory.read_write (Memory.wf_write a _ h), Memory.read_write h]
  by_cases h1 : x = a
  · have : x ≠ a + 1 := by omega
    simp [h1]
  · simp [h1]

/-- A 16-bit write keeps the canonical form and the bound. -/
theorem Memory.write2_keeps {m : Memory} {a n : Nat} (hi lo : Byte) (hw : m.wf = true) (hb : m.below n = true)
    (ha : a + 1 < n) :
    ((m.write a hi).write (a + 1) lo).wf = true ∧ ((m.write a hi).write (a + 1) lo).below n = true :=
  ⟨Memory.wf_write _ _ (Memory.wf_write _ _ hw), Memory.below_write _ ha (Memory.below_write _ (by omega) hb)⟩

/-! ### The stack -/

/-- A push that completes (R170). -/
theorem State.push_ok {s t : State} {v insn : Word} :
    s.push v insn = .ok t ↔
      2 ≤ (s.readReg .sp).toNat ∧ (s.readReg .sp).toNat + 1 < s.memSize.toNat ∧
      t = ({ s with mem := (s.mem.write (s.readReg .sp).toNat (hiByte v)).write ((s.readReg .sp).toNat + 1) (loByte v) }
            : State).writeReg .sp (s.readReg .sp - 2) := by
  unfold State.push
  by_cases h : (s.readReg .sp).toNat < 2
  · simp only [h, if_true, bind, Except.bind]
    constructor
    · intro hh; cases hh
    · intro hh; omega
  · by_cases hb : s.inBounds (s.readReg .sp).toNat 2 = true
    · have hb' := State.inBounds_iff.mp hb
      simp only [h, if_false, State.memWrite2, hb, if_true, bind, Except.bind, pure, Except.pure, Except.ok.injEq]
      constructor
      · intro hh; exact ⟨by omega, by omega, hh.symm⟩
      · intro hh; exact hh.2.2.symm
    · have hb' := mt State.inBounds_iff.mpr hb
      simp only [h, if_false, State.memWrite2, hb, bind, Except.bind, pure, Except.pure]
      constructor
      · intro hh; cases hh
      · intro hh; omega

/-- A push that faults: the old `sp` is the address reported (R170, R211). -/
theorem State.push_error {s : State} {v insn : Word} {f : Fault} :
    s.push v insn = .error f ↔
      ((s.readReg .sp).toNat < 2 ∨ s.memSize.toNat ≤ (s.readReg .sp).toNat + 1) ∧
      f = .outOfBounds (s.readReg .sp).toNat .stackPush insn := by
  unfold State.push
  by_cases h : (s.readReg .sp).toNat < 2
  · simp [h, bind, Except.bind, eq_comm]
  · by_cases hb : s.inBounds (s.readReg .sp).toNat 2 = true
    · have hb' := State.inBounds_iff.mp hb
      simp only [h, if_false, State.memWrite2, hb, if_true, bind, Except.bind, pure, Except.pure, false_or]
      constructor
      · intro hh; cases hh
      · intro hh; omega
    · have hb' := mt State.inBounds_iff.mpr hb
      simp only [h, if_false, State.memWrite2, hb, bind, Except.bind, pure, Except.pure, false_or]
      constructor
      · intro hh; cases hh; exact ⟨by omega, rfl⟩
      · intro hh; rw [hh.2]; rfl

/-- A pop that completes (R171). -/
theorem State.pop_ok {s t : State} {v insn : Word} :
    s.pop insn = .ok (v, t) ↔
      (s.readReg .sp).toNat + 3 < s.memSize.toNat ∧
      v = joinBytes (s.mem.read ((s.readReg .sp).toNat + 2)) (s.mem.read ((s.readReg .sp).toNat + 3)) ∧
      t = s.writeReg .sp (s.readReg .sp + 2) := by
  unfold State.pop
  by_cases hb : s.inBounds ((s.readReg .sp).toNat + 2) 2 = true
  · have hb' := State.inBounds_iff.mp hb
    simp only [State.memRead2, hb, if_true, bind, Except.bind, pure, Except.pure, Except.ok.injEq, Prod.mk.injEq]
    constructor
    · rintro ⟨h1, h2⟩; exact ⟨by omega, h1.symm, h2.symm⟩
    · rintro ⟨-, h1, h2⟩; exact ⟨h1.symm, h2.symm⟩
  · have hb' := mt State.inBounds_iff.mpr hb
    simp only [State.memRead2, hb, bind, Except.bind]
    constructor
    · intro hh; cases hh
    · intro hh; omega

/-- A pop that faults: `sp + 2` is the address reported, on integers (R171, R211). -/
theorem State.pop_error {s : State} {insn : Word} {f : Fault} :
    s.pop insn = .error f ↔
      s.memSize.toNat ≤ (s.readReg .sp).toNat + 3 ∧ f = .outOfBounds ((s.readReg .sp).toNat + 2) .stackPop insn := by
  unfold State.pop
  by_cases hb : s.inBounds ((s.readReg .sp).toNat + 2) 2 = true
  · have hb' := State.inBounds_iff.mp hb
    simp only [State.memRead2, hb, if_true, bind, Except.bind, pure, Except.pure]
    constructor
    · intro hh; cases hh
    · intro hh; omega
  · have hb' := mt State.inBounds_iff.mpr hb
    simp only [State.memRead2, hb, bind, Except.bind]
    constructor
    · intro hh; cases hh; exact ⟨by omega, rfl⟩
    · intro hh; rw [hh.2]; rfl

/-! ### Ending an instruction -/

@[simp] theorem State.conclude_ok (s t : State) : s.conclude (.ok t) = .next t := rfl
@[simp] theorem State.conclude_error (s : State) (f : Fault) : s.conclude (.error f) = .next (s.raise f) := rfl

/-- An instruction always ends in a next state: the one it completed in, or the fault raised where its operand fetches
left `ip` (R118). -/
theorem State.conclude_next {s t : State} {r : Except Fault State} :
    s.conclude r = .next t ↔ r = .ok t ∨ ∃ f, r = .error f ∧ t = s.raise f := by
  cases r <;> simp [eq_comm]

/-- So `conclude` answers a next state whatever the phases gave. -/
theorem State.conclude_exists (s : State) (r : Except Fault State) : ∃ t, s.conclude r = .next t := by
  cases r <;> exact ⟨_, rfl⟩

/-- A later phase happens only if the one before it did not fault (R114): how a sequence of phases ends. -/
theorem Except.bind_ok_iff {ε α β : Type} {x : Except ε α} {f : α → Except ε β} {b : β} :
    (x >>= f) = .ok b ↔ ∃ a, x = .ok a ∧ f a = .ok b := by
  cases x <;> simp [bind, Except.bind]

theorem Except.bind_error_iff {ε α β : Type} {x : Except ε α} {f : α → Except ε β} {e : ε} :
    (x >>= f) = .error e ↔ x = .error e ∨ ∃ a, x = .ok a ∧ f a = .error e := by
  cases x <;> simp [bind, Except.bind]

end Sys2Proof.Machine
end

