-- ==== Sys2Proof/Laws/Exec.lean ====
section
/-! SUPPORT. One spec lemma per instruction: the state it completes in, and an inversion lemma saying everything it can
do (it completes so, or it raises a fault where its operand fetches left `ip`). Callers cite these and never unfold a
meaning. -/

namespace Sys2Proof.Machine

/-! ### Completion -/

theorem operandReg_of {insn : Word} {i : Byte} {r : Reg} (h : Reg.ofIndex i = some r) : operandReg insn i = .ok r :=
  operandReg_ok.mpr h

/-- What a source register reads after the operand fetches (R26, R114). -/
theorem State.readReg_advance_source (s : State) (n : Nat) (r : Reg) : (s.advance n).readReg r = s.sourceValue n r := by
  rw [State.readReg_advance, State.sourceValue]

/-- MOV_LIT_REG completes (R130). -/
theorem exec_movLitReg {s : State} {lit : Word} {dst : Byte} {d : Reg} (hd : Reg.ofIndex dst = some d) :
    exec (.movLitReg lit dst) s = .next ((s.advance 4).writeReg d lit) := by
  simp [exec, execMovLitReg, operandReg_of hd, bind, Except.bind, pure, Except.pure]

/-- MOV_REG_REG completes (R131). -/
theorem exec_movRegReg {s : State} {src dst : Byte} {r d : Reg} (hr : Reg.ofIndex src = some r)
    (hd : Reg.ofIndex dst = some d) :
    exec (.movRegReg src dst) s = .next ((s.advance 3).writeReg d (s.sourceValue 3 r)) := by
  simp only [exec, execMovRegReg, operandReg_of hr, operandReg_of hd, bind, Except.bind, pure, Except.pure,
    State.readReg_advance_source, State.conclude_ok]

/-- MOV_REG_MEM completes (R132). -/
theorem exec_movRegMem {s : State} {src : Byte} {addr : Word} {r : Reg} (hr : Reg.ofIndex src = some r)
    (ha : addr.toNat + 1 < s.size) :
    exec (.movRegMem src addr) s = .next
      { s.advance 4 with
        mem := (s.mem.write addr.toNat (hiByte (s.sourceValue 4 r))).write (addr.toNat + 1) (loByte (s.sourceValue 4 r)) } := by
  have hw := (State.memWrite2_ok (s := s.advance 4) (v := s.sourceValue 4 r) (k := .dataWrite)
    (insn := s.readReg .ip)).mpr ⟨ha, rfl⟩
  simp only [exec, execMovRegMem, operandReg_of hr, bind, Except.bind, State.readReg_advance_source, hw,
    State.conclude_ok, State.advance_mem]

/-- MOV_MEM_REG completes (R133). -/
theorem exec_movMemReg {s : State} {addr : Word} {dst : Byte} {d : Reg} (hd : Reg.ofIndex dst = some d)
    (ha : addr.toNat + 1 < s.size) :
    exec (.movMemReg addr dst) s =
      .next ((s.advance 4).writeReg d (joinBytes (s.mem.read addr.toNat) (s.mem.read (addr.toNat + 1)))) := by
  have hm := (State.memRead2_ok (s := s.advance 4) (k := .dataRead) (insn := s.readReg .ip)).mpr ⟨ha, rfl⟩
  simp only [exec, execMovMemReg, operandReg_of hd, bind, Except.bind, pure, Except.pure, hm, State.conclude_ok,
    State.advance_mem]

/-- ADD_REG_REG completes (R150). -/
theorem exec_addRegReg {s : State} {p q : Byte} {a b : Reg} (ha : Reg.ofIndex p = some a) (hb : Reg.ofIndex q = some b) :
    exec (.addRegReg p q) s = .next ((s.advance 3).writeReg .acc (s.sourceValue 3 a + s.sourceValue 3 b)) := by
  simp only [exec, execAddRegReg, operandReg_of ha, operandReg_of hb, bind, Except.bind, pure, Except.pure,
    State.readReg_advance_source, State.conclude_ok, aluAdd]

/-- JMP_NOT_EQ always completes (R160). -/
theorem exec_jmpNotEq (s : State) (lit addr : Word) :
    exec (.jmpNotEq lit addr) s =
      .next (if lit = s.readReg .acc then s.advance 5 else (s.advance 5).writeReg .ip addr) := by
  by_cases h : lit = s.readReg .acc <;> simp [exec, execJmpNotEq, aluNotEqual, h]

/-- The state a push completes in, from the state `s` before the instruction. -/
def State.pushed (s : State) (len : Nat) (v : Word) : State :=
  ({ s.advance len with mem := (s.mem.write s.sp (hiByte v)).write (s.sp + 1) (loByte v) } : State).writeReg .sp
    (s.readReg .sp - 2)

theorem State.push_advance {s : State} {len : Nat} {v insn : Word} (h2 : 2 ≤ s.sp) (hb : s.sp + 1 < s.size) :
    (s.advance len).push v insn = .ok (s.pushed len v) := by
  have hsp : (s.advance len).readReg .sp = s.readReg .sp := by simp
  exact State.push_ok.mpr ⟨by rw [hsp]; exact h2, by rw [hsp]; exact hb, by rw [hsp]; rfl⟩

/-- PSH_LIT completes (R172). -/
theorem exec_pshLit {s : State} {lit : Word} (h2 : 2 ≤ s.sp) (hb : s.sp + 1 < s.size) :
    exec (.pshLit lit) s = .next (s.pushed 3 lit) := by
  simp only [exec, execPshLit, State.push_advance h2 hb, State.conclude_ok]

/-- PSH_REG completes (R173). -/
theorem exec_pshReg {s : State} {src : Byte} {r : Reg} (hr : Reg.ofIndex src = some r) (h2 : 2 ≤ s.sp)
    (hb : s.sp + 1 < s.size) : exec (.pshReg src) s = .next (s.pushed 2 (s.sourceValue 2 r)) := by
  simp only [exec, execPshReg, operandReg_of hr, bind, Except.bind, State.readReg_advance_source,
    State.push_advance h2 hb, State.conclude_ok]

/-- POP completes (R174). -/
theorem exec_pop {s : State} {dst : Byte} {d : Reg} (hd : Reg.ofIndex dst = some d) (hb : s.sp + 3 < s.size) :
    exec (.pop dst) s =
      .next (((s.advance 2).writeReg .sp (s.readReg .sp + 2)).writeReg d
        (joinBytes (s.mem.read (s.sp + 2)) (s.mem.read (s.sp + 3)))) := by
  have hsp : (s.advance 2).readReg .sp = s.readReg .sp := by simp
  have hp := (State.pop_ok (s := s.advance 2) (insn := s.readReg .ip)).mpr ⟨by rw [hsp]; exact hb, rfl, rfl⟩
  simp only [exec, execPop, operandReg_of hd, bind, Except.bind, pure, Except.pure, hp, State.conclude_ok, hsp,
    State.advance_mem]

/-! ### Everything an instruction can do -/

/-- Every instruction answers a next state, from every state and with every operand. -/
theorem exec_next (i : Instr) (s : State) : ∃ t, exec i s = .next t := by
  cases i <;>
    simp only [exec, execMovLitReg, execMovRegReg, execMovRegMem, execMovMemReg, execAddRegReg, execJmpNotEq, execPshLit,
      execPshReg, execPop] <;>
    exact State.conclude_exists _ _

/-- The OutOfBounds fault of the instruction's data or stack access, if it has one (R211, R215). -/
def State.accessFault (s : State) : Instr → Option Fault
  | .movLitReg _ _ => none
  | .movRegReg _ _ => none
  | .movRegMem _ addr => some (.outOfBounds addr.toNat .dataWrite (s.readReg .ip))
  | .movMemReg addr _ => some (.outOfBounds addr.toNat .dataRead (s.readReg .ip))
  | .addRegReg _ _ => none
  | .jmpNotEq _ _ => none
  | .pshLit _ => some (.outOfBounds s.sp .stackPush (s.readReg .ip))
  | .pshReg _ => some (.outOfBounds s.sp .stackPush (s.readReg .ip))
  | .pop _ => some (.outOfBounds (s.sp + 2) .stackPop (s.readReg .ip))

/-- A register operand that names no register stops the instruction where its operand fetches left it. -/
theorem operandReg_cases (insn : Word) (i : Byte) :
    (∃ r, Reg.ofIndex i = some r ∧ namesRegister i = true ∧ operandReg insn i = .ok r) ∨
    (12 ≤ i.toNat ∧ operandReg insn i = .error (.unknownRegister i insn)) := by
  cases h : Reg.ofIndex i with
  | none =>
    have := Reg.ofIndex_eq_none.mp h
    exact .inr ⟨this, operandReg_error.mpr ⟨this, rfl⟩⟩
  | some r =>
    have : i.toNat ≤ 11 := Reg.ofIndex_isSome.mp (by simp [h])
    exact .inl ⟨r, rfl, by simp [namesRegister, this], operandReg_of h⟩

/-- How an instruction ends (R114): with good register operands and an access inside memory it completes (the lemmas
above say in which state); or a register operand of 12 or more, or an access that is not inside memory, raises its
fault in the state the operand fetches left (R118). -/
theorem exec_cases (s : State) (i : Instr) :
    (i.wellFormed = true ∧ s.AccessInBounds i) ∨
    (∃ index, 12 ≤ index.toNat ∧ index ∈ i.regOperands ∧
      exec i s = .next ((s.advance i.length).raise (.unknownRegister index (s.readReg .ip)))) ∨
    (i.wellFormed = true ∧ ¬ s.AccessInBounds i ∧ ∃ f, s.accessFault i = some f ∧
      exec i s = .next ((s.advance i.length).raise f)) := by
  have hsp : ∀ n, (s.advance n).readReg .sp = s.readReg .sp := by simp
  cases i with
  | movLitReg lit dst =>
    rcases operandReg_cases (s.readReg .ip) dst with ⟨d, hd, hn, hok⟩ | ⟨h12, herr⟩
    · exact .inl ⟨by simp [Instr.wellFormed, Instr.regOperands, hn], trivial⟩
    · exact .inr (.inl ⟨dst, h12, by simp [Instr.regOperands], by simp [exec, execMovLitReg, herr, bind, Except.bind]; rfl⟩)
  | movRegReg src dst =>
    rcases operandReg_cases (s.readReg .ip) src with ⟨r, hr, hrn, hrok⟩ | ⟨h12, herr⟩
    · rcases operandReg_cases (s.readReg .ip) dst with ⟨d, hd, hn, hok⟩ | ⟨h12, herr⟩
      · exact .inl ⟨by simp [Instr.wellFormed, Instr.regOperands, hn, hrn], trivial⟩
      · exact .inr (.inl ⟨dst, h12, by simp [Instr.regOperands], by simp [exec, execMovRegReg, hrok, herr, bind, Except.bind]; rfl⟩)
    · exact .inr (.inl ⟨src, h12, by simp [Instr.regOperands], by simp [exec, execMovRegReg, herr, bind, Except.bind]; rfl⟩)
  | movRegMem src addr =>
    rcases operandReg_cases (s.readReg .ip) src with ⟨r, hr, hn, hok⟩ | ⟨h12, herr⟩
    · have hw : (Instr.movRegMem src addr).wellFormed = true := by simp [Instr.wellFormed, Instr.regOperands, hn]
      by_cases hb : addr.toNat + 1 < s.size
      · exact .inl ⟨hw, hb⟩
      · refine .inr (.inr ⟨hw, hb, _, rfl, ?_⟩)
        have he := (State.memWrite2_error (s := s.advance 4) (v := (s.advance 4).readReg r) (k := .dataWrite)
          (insn := s.readReg .ip)).mpr ⟨Nat.le_of_not_lt hb, rfl⟩
        simp only [exec, execMovRegMem, hok, bind, Except.bind, he, State.conclude_error]
        rfl
    · exact .inr (.inl ⟨src, h12, by simp [Instr.regOperands], by simp [exec, execMovRegMem, herr, bind, Except.bind]; rfl⟩)
  | movMemReg addr dst =>
    rcases operandReg_cases (s.readReg .ip) dst with ⟨d, hd, hn, hok⟩ | ⟨h12, herr⟩
    · have hw : (Instr.movMemReg addr dst).wellFormed = true := by simp [Instr.wellFormed, Instr.regOperands, hn]
      by_cases hb : addr.toNat + 1 < s.size
      · exact .inl ⟨hw, hb⟩
      · refine .inr (.inr ⟨hw, hb, _, rfl, ?_⟩)
        have he := (State.memRead2_error (s := s.advance 4) (k := .dataRead)
          (insn := s.readReg .ip)).mpr ⟨Nat.le_of_not_lt hb, rfl⟩
        simp only [exec, execMovMemReg, hok, bind, Except.bind, he, State.conclude_error]
        rfl
    · exact .inr (.inl ⟨dst, h12, by simp [Instr.regOperands], by simp [exec, execMovMemReg, herr, bind, Except.bind]; rfl⟩)
  | addRegReg p q =>
    rcases operandReg_cases (s.readReg .ip) p with ⟨r, hr, hrn, hrok⟩ | ⟨h12, herr⟩
    · rcases operandReg_cases (s.readReg .ip) q with ⟨d, hd, hn, hok⟩ | ⟨h12, herr⟩
      · exact .inl ⟨by simp [Instr.wellFormed, Instr.regOperands, hn, hrn], trivial⟩
      · exact .inr (.inl ⟨q, h12, by simp [Instr.regOperands], by simp [exec, execAddRegReg, hrok, herr, bind, Except.bind]; rfl⟩)
    · exact .inr (.inl ⟨p, h12, by simp [Instr.regOperands], by simp [exec, execAddRegReg, herr, bind, Except.bind]; rfl⟩)
  | jmpNotEq lit addr => exact .inl ⟨rfl, trivial⟩
  | pshLit lit =>
    by_cases hb : 2 ≤ s.sp ∧ s.sp + 1 < s.size
    · exact .inl ⟨rfl, hb⟩
    · refine .inr (.inr ⟨rfl, hb, _, rfl, ?_⟩)
      have he := (State.push_error (s := s.advance 3) (v := lit) (insn := s.readReg .ip)).mpr
        ⟨by rw [hsp]; show s.sp < 2 ∨ s.size ≤ s.sp + 1; omega, rfl⟩
      simp only [exec, execPshLit, he, State.conclude_error, hsp]
      rfl
  | pshReg src =>
    rcases operandReg_cases (s.readReg .ip) src with ⟨r, hr, hn, hok⟩ | ⟨h12, herr⟩
    · have hw : (Instr.pshReg src).wellFormed = true := by simp [Instr.wellFormed, Instr.regOperands, hn]
      by_cases hb : 2 ≤ s.sp ∧ s.sp + 1 < s.size
      · exact .inl ⟨hw, hb⟩
      · refine .inr (.inr ⟨hw, hb, _, rfl, ?_⟩)
        have he := (State.push_error (s := s.advance 2) (v := (s.advance 2).readReg r) (insn := s.readReg .ip)).mpr
          ⟨by rw [hsp]; show s.sp < 2 ∨ s.size ≤ s.sp + 1; omega, rfl⟩
        simp only [exec, execPshReg, hok, bind, Except.bind, he, State.conclude_error, hsp]
        rfl
    · exact .inr (.inl ⟨src, h12, by simp [Instr.regOperands], by simp [exec, execPshReg, herr, bind, Except.bind]; rfl⟩)
  | pop dst =>
    rcases operandReg_cases (s.readReg .ip) dst with ⟨d, hd, hn, hok⟩ | ⟨h12, herr⟩
    · have hw : (Instr.pop dst).wellFormed = true := by simp [Instr.wellFormed, Instr.regOperands, hn]
      by_cases hb : s.sp + 3 < s.size
      · exact .inl ⟨hw, hb⟩
      · refine .inr (.inr ⟨hw, hb, _, rfl, ?_⟩)
        have he := (State.pop_error (s := s.advance 2) (insn := s.readReg .ip)).mpr
          ⟨by rw [hsp]; exact Nat.le_of_not_lt hb, rfl⟩
        simp only [exec, execPop, hok, bind, Except.bind, he, State.conclude_error, hsp]
        rfl
    · exact .inr (.inl ⟨dst, h12, by simp [Instr.regOperands], by simp [exec, execPop, herr, bind, Except.bind]; rfl⟩)

theorem Reg.ofIndex_of_namesRegister {i : Byte} (h : namesRegister i = true) : ∃ r, Reg.ofIndex i = some r :=
  Option.isSome_iff_exists.mp (Reg.ofIndex_isSome.mpr (by simpa [namesRegister] using h))

/-- An instruction that completes keeps the latch, MEMSIZE and the launch parameters, and the canonical form of memory. -/
theorem exec_complete_keeps {s t : State} {i : Instr} (hw : i.wellFormed = true) (ha : s.AccessInBounds i)
    (h : exec i s = .next t) :
    ControlKept s t ∧ (s.mem.wf = true → s.mem.below s.size = true → t.mem.wf = true ∧ t.mem.below t.size = true) := by
  cases i <;> simp [Instr.wellFormed, Instr.regOperands, State.AccessInBounds] at hw ha
  case movLitReg lit dst =>
    obtain ⟨d, hd⟩ := Reg.ofIndex_of_namesRegister hw
    rw [exec_movLitReg hd] at h
    cases h
    exact ⟨⟨⟨rfl, rfl⟩, rfl⟩, fun a b => ⟨a, b⟩⟩
  case movRegReg src dst =>
    obtain ⟨r, hr⟩ := Reg.ofIndex_of_namesRegister hw.1
    obtain ⟨d, hd⟩ := Reg.ofIndex_of_namesRegister hw.2
    rw [exec_movRegReg hr hd] at h
    cases h
    exact ⟨⟨⟨rfl, rfl⟩, rfl⟩, fun a b => ⟨a, b⟩⟩
  case movRegMem src addr =>
    obtain ⟨r, hr⟩ := Reg.ofIndex_of_namesRegister hw
    rw [exec_movRegMem hr ha] at h
    cases h
    exact ⟨⟨⟨rfl, rfl⟩, rfl⟩, fun a b => Memory.write2_keeps _ _ a b ha⟩
  case movMemReg addr dst =>
    obtain ⟨d, hd⟩ := Reg.ofIndex_of_namesRegister hw
    rw [exec_movMemReg hd ha] at h
    cases h
    exact ⟨⟨⟨rfl, rfl⟩, rfl⟩, fun a b => ⟨a, b⟩⟩
  case addRegReg p q =>
    obtain ⟨a, hp⟩ := Reg.ofIndex_of_namesRegister hw.1
    obtain ⟨b, hq⟩ := Reg.ofIndex_of_namesRegister hw.2
    rw [exec_addRegReg hp hq] at h
    cases h
    exact ⟨⟨⟨rfl, rfl⟩, rfl⟩, fun a b => ⟨a, b⟩⟩
  case jmpNotEq lit addr =>
    rw [exec_jmpNotEq] at h
    cases h
    split <;> exact ⟨⟨⟨rfl, rfl⟩, rfl⟩, fun a b => ⟨a, b⟩⟩
  case pshLit lit =>
    rw [exec_pshLit ha.1 ha.2] at h
    cases h
    exact ⟨⟨⟨rfl, rfl⟩, rfl⟩, fun a b => Memory.write2_keeps _ _ a b ha.2⟩
  case pshReg src =>
    obtain ⟨r, hr⟩ := Reg.ofIndex_of_namesRegister hw
    rw [exec_pshReg hr ha.1 ha.2] at h
    cases h
    exact ⟨⟨⟨rfl, rfl⟩, rfl⟩, fun a b => Memory.write2_keeps _ _ a b ha.2⟩
  case pop dst =>
    obtain ⟨d, hd⟩ := Reg.ofIndex_of_namesRegister hw
    rw [exec_pop hd ha] at h
    cases h
    exact ⟨⟨⟨rfl, rfl⟩, rfl⟩, fun a b => ⟨a, b⟩⟩

/-- A fault an instruction latches is of its operands or of its access, and only `ip` has moved. -/
theorem exec_latches {s t : State} {i : Instr} {f : Fault} (hf : s.fault = none) (h : exec i s = .next t)
    (ht : t.fault = some f) :
    t = (s.advance i.length).raise f ∧
      ((∃ index, 12 ≤ index.toNat ∧ index ∈ i.regOperands ∧ f = .unknownRegister index (s.readReg .ip)) ∨
        (i.wellFormed = true ∧ ¬ s.AccessInBounds i ∧ s.accessFault i = some f)) := by
  rcases exec_cases s i with ⟨hw, ha⟩ | ⟨idx, h12, hmem, he⟩ | ⟨hw, ha, g, hg, he⟩
  · have := (exec_complete_keeps hw ha h).1.2
    rw [ht, hf] at this
    cases this
  · rw [he] at h
    cases h
    cases ht
    exact ⟨rfl, .inl ⟨_, h12, hmem, rfl⟩⟩
  · rw [he] at h
    cases h
    cases ht
    exact ⟨rfl, .inr ⟨hw, ha, hg⟩⟩

/-! ### The stack pointer's arithmetic, and the effect of a push and of a pop on one field each -/

theorem State.sp_sub_two {s : State} (h : 2 ≤ s.sp) : (s.readReg .sp - 2).toNat = s.sp - 2 := by
  have := (s.readReg .sp).isLt
  simp only [State.sp] at *
  rw [BitVec.toNat_sub]
  simp
  omega

theorem State.sp_add_two {s : State} (h : s.sp + 3 < s.size) : (s.readReg .sp + 2).toNat = s.sp + 2 := by
  have := s.memSize.isLt
  simp only [State.sp, State.size] at *
  rw [BitVec.toNat_add]
  simp
  omega

@[simp] theorem State.readReg_pushed (s : State) (n : Nat) (v : Word) (q : Reg) :
    (s.pushed n v).readReg q = if q = .sp then s.readReg .sp - 2 else (s.advance n).readReg q := by
  simp [State.pushed]

theorem State.read_pushed {s : State} (hw : s.mem.wf = true) (n : Nat) (v : Word) (x : Nat) :
    (s.pushed n v).mem.read x = if x = s.sp then hiByte v else if x = s.sp + 1 then loByte v else s.mem.read x :=
  Memory.read_write2 hw _ v x

end Sys2Proof.Machine
end

