-- ==== Sys2Proof/Laws/Decode.lean ====
section
/-! SUPPORT. Laws of the encoding's helpers: the two bytes of a word, and which instruction an opcode byte selects. -/

namespace Sys2Proof

/-! ### Byte order (R7, R58) -/

/-- The value of two bytes: `high * 256 + low` (R7). -/
theorem joinBytes_toNat (hi lo : Byte) : (joinBytes hi lo).toNat = hi.toNat * 256 + lo.toNat := by
  rw [joinBytes, BitVec.toNat_append, Nat.shiftLeft_eq, Nat.mul_comm, ← Nat.two_pow_add_eq_or_of_lt lo.isLt]

theorem hiByte_toNat (v : Word) : (hiByte v).toNat = v.toNat / 256 := by
  rw [hiByte, BitVec.extractLsb'_toNat, Nat.shiftRight_eq_div_pow]
  have := v.isLt
  omega

theorem loByte_toNat (v : Word) : (loByte v).toNat = v.toNat % 256 := by
  simp [loByte, BitVec.extractLsb'_toNat]

@[simp] theorem hiByte_joinBytes (hi lo : Byte) : hiByte (joinBytes hi lo) = hi := by
  apply BitVec.eq_of_toNat_eq
  rw [hiByte_toNat, joinBytes_toNat]
  have := lo.isLt
  omega

@[simp] theorem loByte_joinBytes (hi lo : Byte) : loByte (joinBytes hi lo) = lo := by
  apply BitVec.eq_of_toNat_eq
  rw [loByte_toNat, joinBytes_toNat]
  have := lo.isLt
  omega

@[simp] theorem joinBytes_hiByte_loByte (v : Word) : joinBytes (hiByte v) (loByte v) = v := by
  apply BitVec.eq_of_toNat_eq
  rw [joinBytes_toNat, hiByte_toNat, loByte_toNat]
  omega

/-! ### The opcode map (R85, R86) -/

theorem mem_allMnemonics (m : Mnemonic) : m ∈ allMnemonics := by cases m <;> decide

theorem Opcodes.toList_eq (o : Opcodes) : o.toList = allMnemonics.map o.value := rfl

/-- Distinct opcodes tell the instructions apart. -/
theorem Opcodes.value_injective {o : Opcodes} (h : o.Distinct) {m n : Mnemonic} (e : o.value m = o.value n) : m = n :=
  List.inj_on_of_nodup_map (o.toList_eq ▸ h) (mem_allMnemonics m) (mem_allMnemonics n) e

/-- A selected instruction has that opcode. -/
theorem Opcodes.value_of_select {o : Opcodes} {b : Byte} {m : Mnemonic} (h : o.select b = some m) : o.value m = b := by
  simpa using List.find?_some h

/-- Under distinct opcodes each opcode selects its instruction. -/
@[simp] theorem Opcodes.select_value {o : Opcodes} (h : o.Distinct) (m : Mnemonic) : o.select (o.value m) = some m := by
  cases hs : o.select (o.value m) with
  | none => simpa using List.find?_eq_none.mp hs m (mem_allMnemonics m)
  | some n => rw [Opcodes.value_injective h (Opcodes.value_of_select hs)]

/-- An undefined opcode is none of the nine values (R89). -/
theorem Opcodes.select_eq_none {o : Opcodes} {b : Byte} : o.select b = none ↔ b ∉ o.toList := by
  rw [o.toList_eq, Opcodes.select, List.find?_eq_none]
  simp only [beq_iff_eq, List.mem_map, not_exists, not_and]

/-- The spec's values are distinct (R86). -/
theorem Opcodes.standard_distinct : Opcodes.standard.Distinct := by decide

/-- The spec's default launch parameters are allowed ones (R86, R90). -/
theorem Config.standard_wellFormed : Config.standard.WellFormed := by decide

end Sys2Proof
end

