-- ==== Sys2Proof/Laws/Step.lean ====
section
/-! SUPPORT. What the fetch primitives, the fetch phase and the step answer, said once. -/

namespace Sys2Proof.Machine

/-- `fetch()` (R110). -/
theorem State.fetch_ok {s t : State} {insn : Word} {b : Byte} :
    s.fetch insn = .ok (b, t) ↔
      (s.readReg .ip).toNat < s.memSize.toNat ∧ b = s.mem.read (s.readReg .ip).toNat ∧ t = s.advance 1 := by
  unfold State.fetch
  cases h : s.memRead1 (s.readReg .ip).toNat .fetch insn with
  | ok c =>
    have := State.memRead1_ok.mp h
    simp only [Except.ok.injEq, Prod.mk.injEq]
    constructor
    · rintro ⟨rfl, rfl⟩; exact ⟨this.1, this.2, rfl⟩
    · rintro ⟨-, rfl, rfl⟩; exact ⟨this.2, rfl⟩
  | error f =>
    have := State.memRead1_error.mp h
    constructor
    · intro hh; cases hh
    · intro hh; omega

theorem State.fetch_error {s t : State} {insn : Word} :
    s.fetch insn = .error t ↔
      s.memSize.toNat ≤ (s.readReg .ip).toNat ∧ t = s.raise (.outOfBounds (s.readReg .ip).toNat .fetch insn) := by
  unfold State.fetch
  cases h : s.memRead1 (s.readReg .ip).toNat .fetch insn with
  | ok c =>
    have := State.memRead1_ok.mp h
    constructor
    · intro hh; cases hh
    · intro hh; omega
  | error f =>
    have := State.memRead1_error.mp h
    simp only [Except.error.injEq]
    constructor
    · rintro rfl; exact ⟨this.1, by rw [this.2]⟩
    · rintro ⟨-, rfl⟩; rw [this.2]

/-- `fetch16()` (R111). -/
theorem State.fetch16_ok {s t : State} {insn v : Word} :
    s.fetch16 insn = .ok (v, t) ↔
      (s.readReg .ip).toNat + 1 < s.memSize.toNat ∧
      v = joinBytes (s.mem.read (s.readReg .ip).toNat) (s.mem.read ((s.readReg .ip).toNat + 1)) ∧ t = s.advance 2 := by
  unfold State.fetch16
  cases h : s.memRead2 (s.readReg .ip).toNat .fetch insn with
  | ok c =>
    have := State.memRead2_ok.mp h
    simp only [Except.ok.injEq, Prod.mk.injEq]
    constructor
    · rintro ⟨rfl, rfl⟩; exact ⟨this.1, this.2, rfl⟩
    · rintro ⟨-, rfl, rfl⟩; exact ⟨this.2, rfl⟩
  | error f =>
    have := State.memRead2_error.mp h
    constructor
    · intro hh; cases hh
    · intro hh; omega

theorem State.fetch16_error {s t : State} {insn : Word} :
    s.fetch16 insn = .error t ↔
      s.memSize.toNat ≤ (s.readReg .ip).toNat + 1 ∧ t = s.raise (.outOfBounds (s.readReg .ip).toNat .fetch insn) := by
  unfold State.fetch16
  cases h : s.memRead2 (s.readReg .ip).toNat .fetch insn with
  | ok c =>
    have := State.memRead2_ok.mp h
    constructor
    · intro hh; cases hh
    · intro hh; omega
  | error f =>
    have := State.memRead2_error.mp h
    simp only [Except.error.injEq]
    constructor
    · rintro rfl; exact ⟨this.1, by rw [this.2]⟩
    · rintro ⟨-, rfl⟩; rw [this.2]

/-- An undefined opcode leaves the state as it is, or with IllegalOpcode latched in strict mode (R113). -/
theorem State.undefinedOpcode_cases (s : State) (op : Byte) (insn : Word) :
    (s.config.permissiveIllegal = true ∧ s.undefinedOpcode op insn = s) ∨
    (s.config.permissiveIllegal = false ∧ s.undefinedOpcode op insn = s.raise (.illegalOpcode op insn)) := by
  cases h : s.config.permissiveIllegal <;> simp [State.undefinedOpcode, h]

/-- A latched machine does not step (R116). -/
theorem step_latched {s : State} {f : Fault} (h : s.fault = some f) : step s = .next s := by
  simp [step, h]

/-- An unlatched machine performs R112 once (R116). -/
theorem step_unlatched {s : State} (h : s.fault = none) : step s = stepUnlatched s := by
  simp [step, h]

theorem stepUnlatched_ended {s t : State} (h : s.fetchInstr = .ended t) : stepUnlatched s = .next t := by
  simp [stepUnlatched, h]

theorem stepUnlatched_execute {s t : State} {i : Instr} (h : s.fetchInstr = .execute i t) :
    stepUnlatched s = exec i s := by
  simp [stepUnlatched, h]

/-- What an unlatched step comes from: the fetch phase that ended it, or the instruction it executed. -/
theorem step_cases {s t : State} (hf : s.fault = none) (h : step s = .next t) :
    s.fetchInstr = .ended t ∨ ∃ i u, s.fetchInstr = .execute i u ∧ exec i s = .next t := by
  rw [step_unlatched hf] at h
  cases hi : s.fetchInstr with
  | ended u =>
    rw [stepUnlatched_ended hi] at h
    cases h
    exact .inl rfl
  | execute i u =>
    rw [stepUnlatched_execute hi] at h
    exact .inr ⟨i, u, rfl, h⟩

end Sys2Proof.Machine
end

