-- ==== Sys2Proof/Laws/Fetch.lean ====
section
/-! SUPPORT. What the fetch phase of a step answers, and what the decoder reads from the bytes at `ip`, case by case. -/

namespace Sys2Proof.Machine

/-- The opcode fetch of a step inside memory. -/
theorem State.fetch_opcode {s : State} (h : s.pc < s.size) :
    s.fetch (s.readReg .ip) = .ok (s.codeByte 0, s.advance 1) :=
  State.fetch_ok.mpr ⟨h, rfl, rfl⟩

/-- The fetch of a byte operand at offset `k` that is inside memory. -/
theorem State.fetch_advance {s : State} {insn : Word} {k : Nat} (h : s.pc + k < s.size) :
    (s.advance k).fetch insn = .ok (s.codeByte k, s.advance (k + 1)) := by
  have hp : ((s.advance k).readReg .ip).toNat = s.pc + k := State.advance_pc (Nat.le_of_lt h)
  exact State.fetch_ok.mpr ⟨by rw [hp]; exact h, by rw [hp]; rfl, (s.advance_advance k 1).symm⟩

/-- The fetch of a byte operand at offset `k` that is not inside memory, the bytes before it being there. -/
theorem State.fetch_advance_error {s : State} {insn : Word} {k : Nat} (h0 : s.pc + k ≤ s.size)
    (h : s.size ≤ s.pc + k) :
    (s.advance k).fetch insn = .error ((s.advance k).raise (.outOfBounds (s.pc + k) .fetch insn)) := by
  have hp : ((s.advance k).readReg .ip).toNat = s.pc + k := State.advance_pc h0
  exact State.fetch_error.mpr ⟨by rw [hp]; exact h, by rw [hp]⟩

/-- The fetch of a word operand at offset `k` that is inside memory. -/
theorem State.fetch16_advance {s : State} {insn : Word} {k : Nat} (h : s.pc + k + 1 < s.size) :
    (s.advance k).fetch16 insn = .ok (s.codeWord k, s.advance (k + 2)) := by
  have hp : ((s.advance k).readReg .ip).toNat = s.pc + k := State.advance_pc (by omega)
  exact State.fetch16_ok.mpr ⟨by rw [hp]; exact h, by rw [hp]; rfl, (s.advance_advance k 2).symm⟩

/-- The fetch of a word operand at offset `k` of which a byte is not inside memory, the bytes before it being there. -/
theorem State.fetch16_advance_error {s : State} {insn : Word} {k : Nat} (h0 : s.pc + k ≤ s.size)
    (h : s.size ≤ s.pc + k + 1) :
    (s.advance k).fetch16 insn = .error ((s.advance k).raise (.outOfBounds (s.pc + k) .fetch insn)) := by
  have hp : ((s.advance k).readReg .ip).toNat = s.pc + k := State.advance_pc h0
  exact State.fetch16_error.mpr ⟨by rw [hp]; exact h, by rw [hp]⟩

/-- The fetch phase once the opcode selects `m`: the operands are all that is left to fetch. -/
theorem State.fetchInstr_of_select {s : State} {m : Mnemonic} (h : s.pc < s.size)
    (hm : s.config.opc.select (s.codeByte 0) = some m) :
    s.fetchInstr = match takeOperands (fetchSource (s.readReg .ip)) m (s.advance 1) with
      | .ok (i, u) => .execute i u
      | .error u => .ended u := by
  cases ht : takeOperands (fetchSource (s.readReg .ip)) m (s.advance 1) <;>
    simp [State.fetchInstr, State.fetch_opcode h, hm, ht]

/-- The nine lengths (R85). -/
theorem Mnemonic.length_eq (m : Mnemonic) : m.length = match m with
    | .movLitReg => 4
    | .movRegReg => 3
    | .movRegMem => 4
    | .movMemReg => 4
    | .addRegReg => 3
    | .jmpNotEq => 5
    | .pshLit => 3
    | .pshReg => 2
    | .pop => 2 := by
  cases m <;> rfl

/-- The fetch phase of a whole instruction inside memory (R114 phase 1). -/
theorem State.fetchInstr_execute {s : State} {m : Mnemonic} (hm : s.config.opc.select (s.codeByte 0) = some m)
    (h : s.pc + m.length ≤ s.size) : s.fetchInstr = .execute (s.instrAt m) (s.advance m.length) := by
  have h1 : s.pc < s.size := by unfold Mnemonic.length at h; omega
  rw [State.fetchInstr_of_select h1 hm]
  cases m <;> simp only [Mnemonic.length_eq] at h ⊢ <;>
    simp (disch := omega) only [takeOperands, fetchSource, State.fetch_advance, State.fetch16_advance, bind, Except.bind,
      pure, Except.pure, State.instrAt, Nat.reduceAdd]

/-- The size of the first operand of each instruction (R82). -/
def firstOperandSize : Mnemonic → Nat
  | .movLitReg | .movMemReg | .jmpNotEq | .pshLit => 2
  | .movRegReg | .movRegMem | .addRegReg | .pshReg | .pop => 1

/-- The offset of the operand that the fetch phase fails on when only `room` bytes of the instruction are inside memory:
the first operand that is not. -/
def missingOffset (m : Mnemonic) (room : Nat) : Nat :=
  if room < 1 + firstOperandSize m then 1 else 1 + firstOperandSize m

/-- The fetch phase of an instruction that is not all inside memory, its opcode being there (R212 item 3). -/
theorem State.fetchInstr_missing {s : State} {m : Mnemonic} (h : s.pc < s.size)
    (hm : s.config.opc.select (s.codeByte 0) = some m) (hl : s.size < s.pc + m.length) :
    s.fetchInstr = .ended ((s.advance (missingOffset m (s.size - s.pc))).raise
      (.outOfBounds (s.pc + missingOffset m (s.size - s.pc)) .fetch (s.readReg .ip))) := by
  rw [State.fetchInstr_of_select h hm]
  by_cases hroom : s.size - s.pc < 1 + firstOperandSize m
  · rw [show missingOffset m (s.size - s.pc) = 1 from if_pos hroom]
    cases m <;> simp only [firstOperandSize, Nat.reduceAdd] at hroom <;>
      simp (disch := omega) only [takeOperands, fetchSource, State.fetch_advance_error, State.fetch16_advance_error, bind,
        Except.bind]
  · rw [show missingOffset m (s.size - s.pc) = 1 + firstOperandSize m from if_neg hroom]
    cases m <;> simp only [firstOperandSize, Mnemonic.length_eq, Nat.reduceAdd] at hroom hl ⊢ <;>
      first
      | omega
      | simp (disch := omega) only [takeOperands, fetchSource, State.fetch_advance, State.fetch16_advance,
          State.fetch_advance_error, State.fetch16_advance_error, bind, Except.bind, Nat.reduceAdd]

/-- The fetch phase outside memory (R212 item 1). -/
theorem State.fetchInstr_outside {s : State} (h : s.size ≤ s.pc) :
    s.fetchInstr = .ended (s.raise (.outOfBounds s.pc .fetch (s.readReg .ip))) := by
  have : s.fetch (s.readReg .ip) = .error (s.raise (.outOfBounds s.pc .fetch (s.readReg .ip))) :=
    State.fetch_error.mpr ⟨h, rfl⟩
  simp [State.fetchInstr, this]

/-- The fetch phase on an undefined opcode (R113). -/
theorem State.fetchInstr_undefined {s : State} (h : s.pc < s.size)
    (hm : s.config.opc.select (s.codeByte 0) = none) :
    s.fetchInstr = .ended ((s.advance 1).undefinedOpcode (s.codeByte 0) (s.readReg .ip)) := by
  simp [State.fetchInstr, State.fetch_opcode h, hm]

/-- The fetch phase in full: outside memory, undefined opcode, not all inside memory, or an instruction. -/
theorem State.fetchInstr_cases (s : State) :
    (s.size ≤ s.pc ∧ s.fetchInstr = .ended (s.raise (.outOfBounds s.pc .fetch (s.readReg .ip)))) ∨
    (s.pc < s.size ∧ s.config.opc.select (s.codeByte 0) = none ∧
      s.fetchInstr = .ended ((s.advance 1).undefinedOpcode (s.codeByte 0) (s.readReg .ip))) ∨
    (∃ m, s.pc < s.size ∧ s.config.opc.select (s.codeByte 0) = some m ∧ s.size < s.pc + m.length ∧
      s.fetchInstr = .ended ((s.advance (missingOffset m (s.size - s.pc))).raise
        (.outOfBounds (s.pc + missingOffset m (s.size - s.pc)) .fetch (s.readReg .ip)))) ∨
    (∃ m, s.config.opc.select (s.codeByte 0) = some m ∧ s.pc + m.length ≤ s.size ∧
      s.fetchInstr = .execute (s.instrAt m) (s.advance m.length)) := by
  by_cases h : s.size ≤ s.pc
  · exact .inl ⟨h, State.fetchInstr_outside h⟩
  · have h' : s.pc < s.size := by omega
    cases hm : s.config.opc.select (s.codeByte 0) with
    | none => exact .inr (.inl ⟨h', rfl, State.fetchInstr_undefined h' hm⟩)
    | some m =>
      by_cases hl : s.pc + m.length ≤ s.size
      · exact .inr (.inr (.inr ⟨m, rfl, hl, State.fetchInstr_execute hm hl⟩))
      · exact .inr (.inr (.inl ⟨m, h', rfl, by omega, State.fetchInstr_missing h' hm (by omega)⟩))

/-! ### The decoder on the bytes at `ip` -/

/-- Bytes of memory from an address on: the first is that byte, if it is inside memory. -/
theorem State.bytesFrom_succ {s : State} {a n : Nat} (h : a < s.size) :
    s.bytesFrom a (n + 1) = s.mem.read a :: s.bytesFrom (a + 1) n := by
  have : s.inBounds a 1 = true := State.inBounds_iff.mpr h
  simp [State.bytesFrom, this]

theorem State.bytesFrom_outside {s : State} {a n : Nat} (h : s.size ≤ a) : s.bytesFrom a n = [] := by
  cases n with
  | zero => rfl
  | succ n =>
    have : ¬ s.inBounds a 1 = true := fun hh => by
      have := State.inBounds_iff.mp hh
      simp only [State.size] at h
      omega
    simp [State.bytesFrom, this]

theorem State.code_eq (s : State) : s.code = s.bytesFrom s.pc 5 := rfl

/-- Each byte from an address on that is inside memory. -/
theorem State.getElem?_bytesFrom {s : State} {n k : Nat} (a : Nat) (hk : k < n) (h : a + k < s.size) :
    (s.bytesFrom a n)[k]? = some (s.mem.read (a + k)) := by
  induction n generalizing a k with
  | zero => omega
  | succ n ih =>
    rw [State.bytesFrom_succ (by omega)]
    cases k with
    | zero => rfl
    | succ k =>
      rw [List.getElem?_cons_succ, ih (a + 1) (by omega) (by omega), Nat.add_assoc, Nat.add_comm 1 k]

/-- The decoder on the bytes at `ip`, when the whole instruction is inside memory: the instruction the fetch phase
fetches. -/
theorem State.decode_code {s : State} {m : Mnemonic} (hm : s.config.opc.select (s.codeByte 0) = some m)
    (h : s.pc + m.length ≤ s.size) : ∃ rest, decode s.config.opc s.code = .ok (s.instrAt m, rest) := by
  simp only [State.codeByte, Nat.add_zero] at hm
  rw [State.code_eq]
  cases m <;> simp only [Mnemonic.length_eq] at h <;>
    simp (disch := omega) only [State.bytesFrom_succ, decode, hm, takeOperands, listSource, listWord, listByte, bind,
      Except.bind, pure, Except.pure, State.instrAt, State.codeByte, State.codeWord, Nat.add_assoc, Nat.reduceAdd,
      Except.ok.injEq, Prod.mk.injEq, true_and, exists_eq']

/-- If the instruction the opcode selects is not all inside memory, the decoder runs out of bytes. -/
theorem State.decode_code_missing {s : State} {m : Mnemonic} (h : s.pc < s.size)
    (hm : s.config.opc.select (s.codeByte 0) = some m) (hl : s.size < s.pc + m.length) :
    decode s.config.opc s.code = .error .truncated := by
  simp only [State.codeByte, Nat.add_zero] at hm
  rw [State.code_eq, State.bytesFrom_succ h]
  simp only [decode, hm]
  by_cases h1 : s.pc + 1 < s.size <;> by_cases h2 : s.pc + 2 < s.size <;> by_cases h3 : s.pc + 3 < s.size <;>
    cases m <;> simp only [Mnemonic.length_eq] at hl <;>
    first
    | omega
    | simp (disch := omega) only [State.bytesFrom_succ, State.bytesFrom_outside, takeOperands, listSource, listWord,
        listByte, bind, Except.bind, Nat.add_assoc, Nat.reduceAdd]

/-- If the decoder reads an instruction from the bytes at `ip`, the opcode selects it and it is all inside memory. -/
theorem State.of_decode_code {s : State} {i : Instr} {rest : List Byte}
    (h : decode s.config.opc s.code = .ok (i, rest)) :
    ∃ m, s.config.opc.select (s.codeByte 0) = some m ∧ s.pc + m.length ≤ s.size ∧ i = s.instrAt m := by
  by_cases h0 : s.size ≤ s.pc
  · rw [State.code_eq, State.bytesFrom_outside h0] at h
    simp [decode] at h
  · have h1 : s.pc < s.size := by omega
    cases hm : s.config.opc.select (s.codeByte 0) with
    | none =>
      rw [State.code_eq, State.bytesFrom_succ h1] at h
      simp only [State.codeByte, Nat.add_zero] at hm
      simp [decode, hm] at h
    | some m =>
      by_cases hl : s.pc + m.length ≤ s.size
      · obtain ⟨rest', hd⟩ := State.decode_code hm hl
        rw [hd] at h
        cases h
        exact ⟨m, rfl, hl, rfl⟩
      · rw [State.decode_code_missing h1 hm (by omega)] at h
        cases h

/-! ### What a completed fetch phase answers -/

@[simp] theorem State.instrAt_mnemonic (s : State) (m : Mnemonic) : (s.instrAt m).mnemonic = m := by cases m <;> rfl

@[simp] theorem State.instrAt_length (s : State) (m : Mnemonic) : (s.instrAt m).length = m.length := by
  rw [Instr.length, State.instrAt_mnemonic]

/-- The instruction fetched is the one at `ip`, and `ip` stands after it. -/
theorem State.of_fetchInstr_execute {s t : State} {i : Instr} (h : s.fetchInstr = .execute i t) :
    ∃ m, s.config.opc.select (s.codeByte 0) = some m ∧ s.pc + m.length ≤ s.size ∧ i = s.instrAt m ∧
      t = s.advance m.length := by
  rcases State.fetchInstr_cases s with ⟨_, h'⟩ | ⟨_, _, h'⟩ | ⟨m, _, _, _, h'⟩ | ⟨m, hm, hl, h'⟩ <;> rw [h'] at h <;>
    cases h
  exact ⟨m, hm, hl, rfl, rfl⟩

/-- Where a fetch phase that runs out of memory stops: at an offset 1 to 3, inside or at the end of memory. -/
theorem missingOffset_bounds {s : State} {m : Mnemonic} (h : s.pc < s.size) (hl : s.size < s.pc + m.length) :
    s.pc + missingOffset m (s.size - s.pc) ≤ s.size ∧ 1 ≤ missingOffset m (s.size - s.pc) ∧
      missingOffset m (s.size - s.pc) ≤ 3 ∧ s.size ≤ s.pc + missingOffset m (s.size - s.pc) + 1 := by
  by_cases hr : s.size - s.pc < 1 + firstOperandSize m
  · rw [show missingOffset m (s.size - s.pc) = 1 from if_pos hr]
    cases m <;> simp only [Mnemonic.length_eq, firstOperandSize] at * <;> omega
  · rw [show missingOffset m (s.size - s.pc) = 1 + firstOperandSize m from if_neg hr]
    cases m <;> simp only [Mnemonic.length_eq, firstOperandSize] at * <;> omega

end Sys2Proof.Machine
end

