-- ==== Sys2Proof/Laws/Run.lean ====
section
/-! SUPPORT. Everything one step can do, said once (R112, R113, R212), and the steps of a state about to execute a given
instruction. -/

namespace Sys2Proof.Machine

/-- Everything a step with no fault latched can do: the opcode fetch fails; an undefined opcode, permissive or strict; an
operand fetch fails; or the instruction at `ip` executes. -/
theorem step_forms {s t : State} (hf : s.fault = none) (h : step s = .next t) :
    (s.size ≤ s.pc ∧ t = s.raise (.outOfBounds s.pc .fetch (s.readReg .ip))) ∨
    (s.pc < s.size ∧ s.config.opc.select (s.codeByte 0) = none ∧ s.config.permissiveIllegal = true ∧
      t = s.advance 1) ∨
    (s.pc < s.size ∧ s.config.opc.select (s.codeByte 0) = none ∧ s.config.permissiveIllegal = false ∧
      t = (s.advance 1).raise (.illegalOpcode (s.codeByte 0) (s.readReg .ip))) ∨
    (∃ m, s.pc < s.size ∧ s.config.opc.select (s.codeByte 0) = some m ∧ s.size < s.pc + m.length ∧
      t = (s.advance (missingOffset m (s.size - s.pc))).raise
        (.outOfBounds (s.pc + missingOffset m (s.size - s.pc)) .fetch (s.readReg .ip))) ∨
    (∃ m, s.config.opc.select (s.codeByte 0) = some m ∧ s.pc + m.length ≤ s.size ∧ exec (s.instrAt m) s = .next t) := by
  rcases step_cases hf h with h | ⟨i, u, h, he⟩
  · rcases State.fetchInstr_cases s with ⟨h1, h'⟩ | ⟨h1, h2, h'⟩ | ⟨m, h1, h2, h3, h'⟩ | ⟨m, hm, hl, h'⟩ <;>
      rw [h'] at h <;> cases h
    · exact .inl ⟨h1, rfl⟩
    · rcases State.undefinedOpcode_cases (s.advance 1) (s.codeByte 0) (s.readReg .ip) with ⟨hp, he⟩ | ⟨hp, he⟩ <;>
        rw [he] <;> simp only [State.advance_config] at hp
      · exact .inr (.inl ⟨h1, h2, hp, rfl⟩)
      · exact .inr (.inr (.inl ⟨h1, h2, hp, rfl⟩))
    · exact .inr (.inr (.inr (.inl ⟨m, h1, h2, h3, rfl⟩)))
  · obtain ⟨m, hm, hl, rfl, rfl⟩ := State.of_fetchInstr_execute h
    exact .inr (.inr (.inr (.inr ⟨m, hm, hl, he⟩)))

/-- The step of a state whose `ip` is outside memory. -/
theorem step_outside {s : State} (hf : s.fault = none) (h : s.size ≤ s.pc) :
    s.StepFaults s.pc (.outOfBounds s.pc .fetch (s.readReg .ip)) :=
  ⟨_, (step_unlatched hf).trans (stepUnlatched_ended (State.fetchInstr_outside h)), rfl, rfl, fun _ _ => rfl,
    fun _ _ => rfl, rfl, rfl⟩

/-- An instruction that completes with an `ip` outside memory completes, and the next step faults. -/
theorem State.completesThenFaults_of {s t : State} {i : Instr} (he : exec i s = .next t) (hf : t.fault = none)
    (h : t.size ≤ t.pc) : s.CompletesThenFaults i (t.readReg .ip) :=
  ⟨t, he, hf, step_outside hf h⟩

/-- Two bytes of memory are fetched wherever the next step reaches them. -/
theorem State.fetchesStored_of {t : State} {a : Nat} {v : Word} (hi : t.mem.read a = hiByte v)
    (lo : t.mem.read (a + 1) = loByte v) (h : a + 1 < t.size) : t.FetchesStored a v := by
  intro k hk
  constructor <;> intro e <;> rw [State.code_eq, State.getElem?_bytesFrom _ hk (by omega), e]
  · rw [hi]
  · rw [lo]

/-! ### A state about to execute the instruction `m` -/

theorem State.Starts.select {s : State} {m : Mnemonic} (h : s.Starts m) :
    s.config.opc.select (s.codeByte 0) = some m := by
  rw [h.opcode]
  exact Opcodes.select_value h.distinct m

/-- Its step, when the whole instruction is inside memory. -/
theorem State.Starts.step_eq {s : State} {m : Mnemonic} (h : s.Starts m) (hl : s.pc + m.length ≤ s.size) :
    step s = exec (s.instrAt m) s :=
  (step_unlatched h.unlatched).trans (stepUnlatched_execute (State.fetchInstr_execute h.select hl))

/-- Its step, when the instruction is not all inside memory: the fault of the first operand that is not. -/
theorem State.Starts.step_truncated {s : State} {m : Mnemonic} (h : s.Starts m) (hl : s.size < s.pc + m.length) {n : Nat}
    (hn : missingOffset m (s.size - s.pc) = n) :
    s.StepFaults (s.pc + n) (.outOfBounds (s.pc + n) .fetch (s.readReg .ip)) := by
  subst hn
  exact ⟨_, (step_unlatched h.unlatched).trans
    (stepUnlatched_ended (State.fetchInstr_missing h.opcodeInMemory h.select hl)),
    State.raise_advance_faultedTo (missingOffset_bounds h.opcodeInMemory hl).1⟩

/-- Its step, when executing it raises a fault after the operand fetches. -/
theorem State.Starts.step_faults {s : State} {m : Mnemonic} (h : s.Starts m) (hl : s.pc + m.length ≤ s.size) {f : Fault}
    (he : exec (s.instrAt m) s = .next ((s.advance m.length).raise f)) : s.StepFaults (s.pc + m.length) f :=
  ⟨_, (h.step_eq hl).trans he, State.raise_advance_faultedTo hl⟩

end Sys2Proof.Machine
end

