-- ==== Sys2Proof/Laws/Commands.lean ====
section
/-! SUPPORT. The host's register selectors, codes of errors, memory windows and run status, said once. -/

namespace Sys2Proof.Machine

/-! ### Register selectors (R194) -/

@[simp] theorem RegSelector.resolve_name (r : Reg) : (RegSelector.name r.name).resolve = some r := by cases r <;> rfl

@[simp] theorem RegSelector.resolve_index (r : Reg) : (RegSelector.index r.index.toNat).resolve = some r := by
  cases r <;> rfl

/-- A selector that is no register's name and no register's index resolves to nothing. -/
theorem RegSelector.resolve_eq_none {sel : RegSelector}
    (h : ∀ r : Reg, sel ≠ .name r.name ∧ sel ≠ .index r.index.toNat) : sel.resolve = none := by
  cases sel with
  | name n =>
    simp only [RegSelector.resolve, List.find?_eq_none]
    intro r _ hr
    exact (h r).1 (by simp at hr; rw [hr])
  | index i =>
    cases hr : RegSelector.resolve (.index i) with
    | none => rfl
    | some r =>
      exfalso
      apply (h r).2
      simp only [RegSelector.resolve, Reg.atIndex] at hr
      have hl := (List.getElem?_eq_some_iff.mp hr).1
      simp [allRegs] at hl
      interval_cases i <;> cases hr <;> rfl

/-! ### Names and codes (R210, R226) -/

/-- A code is 1, 2 or 3, whatever the name is. -/
theorem faultCode_cases (n : FaultName) : faultCode n = 1 ∨ faultCode n = 2 ∨ faultCode n = 3 := by cases n <;> decide

/-- So the code of a command's error is, a refused RESET or LOAD among them. -/
theorem CommandError.code_cases (e : CommandError) : e.code = 1 ∨ e.code = 2 ∨ e.code = 3 := faultCode_cases e.name

/-! ### Memory windows (R197) -/

theorem State.length_window (s : State) (n a : Nat) : (s.window a n).length = n := by
  induction n generalizing a with
  | zero => rfl
  | succ n ih => simp [State.window, ih]

theorem State.getElem?_window (s : State) {n k : Nat} (a : Nat) (h : k < n) :
    (s.window a n)[k]? = some (s.mem.read (a + k)) := by
  induction n generalizing a k with
  | zero => omega
  | succ n ih =>
    cases k with
    | zero => rfl
    | succ k =>
      simp only [State.window, List.getElem?_cons_succ]
      rw [ih (a + 1) (by omega)]
      congr 2
      omega

/-! ### Run status (R117) -/

theorem State.status_latched {s : State} {f : Fault} (h : s.fault = some f) : s.status = .faulted := by
  simp [State.status, h]

theorem State.status_unlatched {s : State} (h : s.fault = none) :
    s.status = if s.pc < s.size then (if s.mem.read s.pc = s.config.haltSentinel then .halted else .running)
      else .faulted := by
  simp only [State.status, h, State.nextEquals, State.inBounds]
  by_cases hb : s.pc < s.size
  · have hb' : s.pc + 1 ≤ s.memSize.toNat := hb
    by_cases he : s.mem.read s.pc = s.config.haltSentinel
    · simp [hb, hb', he]
    · have hd : (s.mem.read s.pc == s.config.haltSentinel) = false := by simp [he]
      simp [hb, hb', hd, he]
  · have hb' : ¬ s.pc + 1 ≤ s.memSize.toNat := hb
    simp [hb, hb']

end Sys2Proof.Machine
end

