-- ==== Sys2Proof/Laws/PerInstr.lean ====
section
/-! SUPPORT. A law of every instruction as syntax, one lemma per constructor. -/

namespace Sys2Proof.Laws.EncodingShape

/-- Under every opcode assignment the encoding of an instruction is as long as its opcode says (R84) and begins with its
opcode byte (R80). -/
def Statement (i : Instr) : Prop :=
  ∀ o : Opcodes, (encode o i).length = i.length ∧ (encode o i).head? = some (o.value i.mnemonic)

theorem movLitReg (lit : Word) (dst : Byte) : Statement (.movLitReg lit dst) := fun _ => ⟨rfl, rfl⟩
theorem movRegReg (src dst : Byte) : Statement (.movRegReg src dst) := fun _ => ⟨rfl, rfl⟩
theorem movRegMem (src : Byte) (addr : Word) : Statement (.movRegMem src addr) := fun _ => ⟨rfl, rfl⟩
theorem movMemReg (addr : Word) (dst : Byte) : Statement (.movMemReg addr dst) := fun _ => ⟨rfl, rfl⟩
theorem addRegReg (p q : Byte) : Statement (.addRegReg p q) := fun _ => ⟨rfl, rfl⟩
theorem jmpNotEq (lit addr : Word) : Statement (.jmpNotEq lit addr) := fun _ => ⟨rfl, rfl⟩
theorem pshLit (lit : Word) : Statement (.pshLit lit) := fun _ => ⟨rfl, rfl⟩
theorem pshReg (src : Byte) : Statement (.pshReg src) := fun _ => ⟨rfl, rfl⟩
theorem pop (dst : Byte) : Statement (.pop dst) := fun _ => ⟨rfl, rfl⟩

end Sys2Proof.Laws.EncodingShape
end

