-- ==== Sys2Proof/Laws/Stack.lean ====
section
/-! SUPPORT. Sequences of pushes and pops (R175, R176): what one push leaves, what a sequence of pushes keeps, and how a
sequence of pops grows at its end. -/

namespace Sys2Proof.Machine

/-- What a push that completes leaves: the value is in the slot above the new `sp`. -/
theorem State.push_leaves {s t : State} {v insn : Word} (hw : s.mem.wf = true) (h : s.push v insn = .ok t) :
    t.mem.wf = true ∧ t.sp + 2 = s.sp ∧ t.size = s.size ∧ t.sp + 3 < t.size ∧
      (∀ q, q ≠ .sp → t.readReg q = s.readReg q) ∧
      (∀ a, a ≠ s.sp → a ≠ s.sp + 1 → t.mem.read a = s.mem.read a) ∧
      joinBytes (t.mem.read (t.sp + 2)) (t.mem.read (t.sp + 3)) = v := by
  obtain ⟨h2, hb, rfl⟩ := State.push_ok.mp h
  replace h2 : 2 ≤ s.sp := h2
  replace hb : s.sp + 1 < s.size := hb
  have hsp : (({ s with mem := (s.mem.write s.sp (hiByte v)).write (s.sp + 1) (loByte v) } : State).writeReg .sp
      (s.readReg .sp - 2)).sp = s.sp - 2 := by
    rw [← State.sp_sub_two h2]
    simp [State.sp]
  refine ⟨Memory.wf_write _ _ (Memory.wf_write _ _ hw), ?_, rfl, ?_, ?_, ?_, ?_⟩
  · rw [hsp]; omega
  · rw [hsp]; show _ < s.size; omega
  · intro q hq; simp [hq]
  · intro a h1 h2; simp [Memory.read_write2 hw, h1, h2]
  · rw [hsp, show s.sp - 2 + 2 = s.sp by omega, show s.sp - 2 + 3 = s.sp + 1 by omega]
    simp [Memory.read_write2 hw]

/-- What a sequence of pushes keeps: MEMSIZE, the other registers, and everything above the first slot written. -/
theorem State.pushAll_leaves {insn : Word} : ∀ (vs : List Word) {s t : State}, s.mem.wf = true →
    s.pushAll insn vs = .ok t →
    t.mem.wf = true ∧ t.sp + 2 * vs.length = s.sp ∧ t.size = s.size ∧ (∀ q, q ≠ .sp → t.readReg q = s.readReg q) ∧
      (∀ a, s.sp + 2 ≤ a → t.mem.read a = s.mem.read a)
  | [], s, t, hw, h => by cases h; exact ⟨hw, by simp, rfl, fun _ _ => rfl, fun _ _ => rfl⟩
  | v :: vs, s, t, hw, h => by
    simp only [State.pushAll] at h
    split at h
    · cases h
    · rename_i u hu
      obtain ⟨a1, a2, a3, a4, a5, a6, a7⟩ := State.push_leaves hw hu
      obtain ⟨b1, b2, b3, b4, b5⟩ := State.pushAll_leaves vs a1 h
      refine ⟨b1, by simp; omega, b3.trans a3, fun q hq => (b4 q hq).trans (a5 q hq), fun a ha => ?_⟩
      rw [b5 a (by omega), a6 a (by omega) (by omega)]

/-- One more pop at the end of a sequence of pops. -/
theorem State.popMany_succ {insn : Word} : ∀ (n : Nat) {t u u' : State} {ws : List Word} {v : Word},
    t.popMany insn n = .ok (ws, u) → u.pop insn = .ok (v, u') → t.popMany insn (n + 1) = .ok (ws ++ [v], u')
  | 0, t, u, u', ws, v, h, h' => by cases h; simp [State.popMany, h']
  | n + 1, t, u, u', ws, v, h, h' => by
    unfold State.popMany at h
    split at h
    · cases h
    · rename_i w t1 hw
      split at h
      · cases h
      · rename_i vs u1 hv
        cases h
        have := State.popMany_succ n hv h'
        unfold State.popMany
        rw [hw]
        simp only [this]
        simp

end Sys2Proof.Machine
end

