-- ==== Sys2Proof/Machine/Assembler.lean ====
section
/-! DEFINITION. The spec's own text form of instructions (R94) and its assembly lines: labels, instructions and the
directives .byte, .word and .zero (R95). It has no effect on the machine (decision D2). -/

namespace Sys2Proof.Machine

/-- One upper-case hexadecimal digit. -/
def hexDigit (n : Nat) : Char :=
  ['0', '1', '2', '3', '4', '5', '6', '7', '8', '9', 'A', 'B', 'C', 'D', 'E', 'F'].getD n '0'

/-- `0x` and four hexadecimal digits (R94). -/
def hexWord (v : Word) : String :=
  "0x" ++ String.ofList ([3, 2, 1, 0].map fun k => hexDigit ((v.toNat >>> (4 * k)) % 16))

/-- A register operand: the register's name, or `reg#N` for an index out of range (R94). -/
def regText (i : Byte) : String :=
  match Reg.ofIndex i with
  | some r => r.name
  | none => "reg#" ++ toString i.toNat

/-- The mnemonic as R85 spells it. -/
def mnemonicText : Mnemonic → String
  | .movLitReg => "MOV_LIT_REG"
  | .movRegReg => "MOV_REG_REG"
  | .movRegMem => "MOV_REG_MEM"
  | .movMemReg => "MOV_MEM_REG"
  | .addRegReg => "ADD_REG_REG"
  | .jmpNotEq => "JMP_NOT_EQ"
  | .pshLit => "PSH_LIT"
  | .pshReg => "PSH_REG"
  | .pop => "POP"

/-- The operands as text, in fetch order: a dereferenced address in brackets, a jump target bare (R94). -/
def operandTexts : Instr → List String
  | .movLitReg lit d => [hexWord lit, regText d]
  | .movRegReg s d => [regText s, regText d]
  | .movRegMem s addr => [regText s, "[" ++ hexWord addr ++ "]"]
  | .movMemReg addr d => ["[" ++ hexWord addr ++ "]", regText d]
  | .addRegReg p q => [regText p, regText q]
  | .jmpNotEq lit addr => [hexWord lit, hexWord addr]
  | .pshLit lit => [hexWord lit]
  | .pshReg r => [regText r]
  | .pop d => [regText d]

/-- An instruction in assembler text: the mnemonic, a space, the operands separated by a comma and a space (R94). -/
def instrText (i : Instr) : String := mnemonicText i.mnemonic ++ " " ++ String.intercalate ", " (operandTexts i)

/-- A line of an assembly listing (R94, R95). -/
inductive AsmLine where
  /-- `name:`, standing for the address of the next byte. -/
  | label (name : String)
  /-- An instruction; a label given here is used in place of its literal or of its address. -/
  | insn (i : Instr) (lit addr : Option String)
  /-- `.byte`; `HALT` is `.byte` of the sentinel. -/
  | byte (b : Byte)
  /-- `.word`, high byte first. -/
  | word (v : Word)
  /-- `.zero N`. -/
  | zero (n : Nat)
  deriving DecidableEq, Repr

/-- How many bytes a line places. -/
def AsmLine.size : AsmLine → Nat
  | .label _ => 0
  | .insn i _ _ => i.length
  | .byte _ => 1
  | .word _ => 2
  | .zero n => n

/-- The address a label stands for, with the listing starting at address `a`: the first line of that name counts
(DESIGN CHOICE, log entry 10, safe). -/
def labelAddress (name : String) (a : Nat) : List AsmLine → Option Nat
  | [] => none
  | .label n :: rest => if n = name then some a else labelAddress name a rest
  | line :: rest => labelAddress name (a + line.size) rest

/-- A literal or address operand: the value written, or the address of the label used instead. -/
def asmOperand (all : List AsmLine) (v : Word) : Option String → Option Word
  | none => some v
  | some name => (labelAddress name 0 all).map (BitVec.ofNat 16)

/-- The instruction with its labels replaced by addresses; none where a label is undefined. -/
def resolveInstr (all : List AsmLine) (i : Instr) (litLabel addrLabel : Option String) : Option Instr :=
  match i with
  | .movLitReg lit d => (asmOperand all lit litLabel).map fun v => .movLitReg v d
  | .movRegReg s d => some (.movRegReg s d)
  | .movRegMem s addr => (asmOperand all addr addrLabel).map fun v => .movRegMem s v
  | .movMemReg addr d => (asmOperand all addr addrLabel).map fun v => .movMemReg v d
  | .addRegReg p q => some (.addRegReg p q)
  | .jmpNotEq lit addr => do
    let v ← asmOperand all lit litLabel
    let w ← asmOperand all addr addrLabel
    return .jmpNotEq v w
  | .pshLit lit => (asmOperand all lit litLabel).map .pshLit
  | .pshReg r => some (.pshReg r)
  | .pop d => some (.pop d)

/-- The bytes of one line of the listing `all`. -/
def AsmLine.bytes (o : Opcodes) (all : List AsmLine) : AsmLine → Option (List Byte)
  | .label _ => some []
  | .insn i lit addr => (resolveInstr all i lit addr).map (encode o)
  | .byte b => some [b]
  | .word v => some (wordBytes v)
  | .zero n => some (List.replicate n 0)

/-- The bytes of some lines of the listing `all`, in order. -/
def assembleLines (o : Opcodes) (all : List AsmLine) : List AsmLine → Option (List Byte)
  | [] => some []
  | line :: rest => do
    let bs ← line.bytes o all
    let tail ← assembleLines o all rest
    return bs ++ tail

/-- The image of a listing, its first byte at address 0 (R94, R95). -/
def assemble (o : Opcodes) (lines : List AsmLine) : Option (List Byte) := assembleLines o lines lines

end Sys2Proof.Machine
end

