-- ==== Sys2Proof/Tests/Slice0.lean ====
section
/-! SUPPORT. The model's own tests, one step each, with expected results from spec/95_test_vectors.md (the vector's id is
in each name or comment) or from the encodings of spec/30_encoding.md; and for each obligation a witness that meets its
hypotheses, clause by clause, at the boundary of its range. -/

namespace Sys2Proof.Tests
open Sys2Proof.Machine

/-- The start of a vector: MEMSIZE, `ip = a` with these bytes there, these registers, everything else zero. -/
def machine (size : Word) (a : Word) (code : List Byte) (regs : List (Reg × Word)) : State :=
  regs.foldl (fun s p => s.writeReg p.1 p.2) (((State.launch Config.standard size).storeCode a.toNat code).writeReg .ip a)

/-- The same with bytes at a second address. -/
def withBytes (s : State) (a : Nat) (bs : List Byte) : State := s.storeCode a bs

/-- The same in permissive mode (R89). -/
def permissive (s : State) : State := { s with config := { s.config with permissiveIllegal := true } }

/-- Something of the state one step leaves. -/
def after {α : Type} (s : State) (f : State → α) : Option α :=
  match step s with
  | .next t => some (f t)
  | .fault _ => none
  | .refused _ => none

/-- Two registers, and whether a fault is latched. -/
def look2 (p q : Reg) (t : State) : Word × Word × Option Fault := (t.readReg p, t.readReg q, t.fault)

/-- Two bytes of memory from `a` on, `ip` and `sp`. -/
def lookMem (a : Nat) (t : State) : Byte × Byte × Word × Word :=
  (t.mem.read a, t.mem.read (a + 1), t.readReg .ip, t.readReg .sp)

/-- `ip` and the latch. -/
def lookFault (t : State) : Word × Option Fault := (t.readReg .ip, t.fault)

/-! ### Well-formedness: a register operand of 12 or more is refused by the check, in each position -/

theorem test_wellFormed_accepts_index_11 : (Instr.movRegReg 0 11).wellFormed = true := by decide
theorem test_wellFormed_movLitReg_dst : (Instr.movLitReg 0x1234 12).wellFormed = false := by decide
theorem test_wellFormed_movRegReg_src : (Instr.movRegReg 12 0).wellFormed = false := by decide
theorem test_wellFormed_movRegReg_dst : (Instr.movRegReg 0 255).wellFormed = false := by decide
theorem test_wellFormed_movRegMem_src : (Instr.movRegMem 12 0x0030).wellFormed = false := by decide
theorem test_wellFormed_movMemReg_dst : (Instr.movMemReg 0x0030 12).wellFormed = false := by decide
theorem test_wellFormed_addRegReg_first : (Instr.addRegReg 12 2).wellFormed = false := by decide
theorem test_wellFormed_addRegReg_second : (Instr.addRegReg 2 255).wellFormed = false := by decide
theorem test_wellFormed_pshReg_src : (Instr.pshReg 12).wellFormed = false := by decide
theorem test_wellFormed_pop_dst : (Instr.pop 12).wellFormed = false := by decide
theorem test_wellFormed_no_register_operand :
    (Instr.jmpNotEq 0xFFFF 0xFFFF).wellFormed = true ∧ (Instr.pshLit 0xFFFF).wellFormed = true := by decide

/-! ### Decoding: words written out bit by bit from the encodings of R130 to R174, as the opcode table numbers them
(byte `k` of the instruction is bits `8k+7 .. 8k`) -/

theorem test_decode_movLitReg : -- 10 12 34 02 (M1)
    decodeTableWord 32 0b00000010_00110100_00010010_00010000 = some (.movLitReg 0x1234 2) := by decide
theorem test_decode_movRegReg : -- 11 02 0B (M7)
    decodeTableWord 24 0b00001011_00000010_00010001 = some (.movRegReg 2 11) := by decide
theorem test_decode_movRegMem : -- 12 01 00 30 (M13)
    decodeTableWord 32 0b00110000_00000000_00000001_00010010 = some (.movRegMem 1 0x0030) := by decide
theorem test_decode_movMemReg : -- 13 00 30 02 (M21)
    decodeTableWord 32 0b00000010_00110000_00000000_00010011 = some (.movMemReg 0x0030 2) := by decide
theorem test_decode_addRegReg : -- 14 02 03 (A1)
    decodeTableWord 24 0b00000011_00000010_00010100 = some (.addRegReg 2 3) := by decide
theorem test_decode_jmpNotEq : -- 15 01 05 00 20 (J6)
    decodeTableWord 40 0b00100000_00000000_00000101_00000001_00010101 = some (.jmpNotEq 0x0105 0x0020) := by decide
theorem test_decode_pshLit : -- 17 BE EF (S1)
    decodeTableWord 24 0b11101111_10111110_00010111 = some (.pshLit 0xBEEF) := by decide
theorem test_decode_pshReg : -- 18 0A (S14)
    decodeTableWord 16 0b00001010_00011000 = some (.pshReg 10) := by decide
theorem test_decode_pop : -- 1A 03 (S3)
    decodeTableWord 16 0b00000011_00011010 = some (.pop 3) := by decide
/-- T3, T4: the gaps, the first value after the range and the sentinel are undefined. -/
theorem test_decode_undefined :
    decodeTableWord 8 0x00 = none ∧ decodeTableWord 8 0x16 = none ∧ decodeTableWord 8 0x19 = none ∧
    decodeTableWord 8 0x1B = none ∧ decodeTableWord 8 0xFE = none := by decide
/-- Bits above `nbits` are zero: the opcode byte alone, its operands zero. -/
theorem test_decode_opcode_byte_alone : decodeTableWord 8 0xFFFFFF15 = some (.jmpNotEq 0 0) := by decide
/-- R97: the encoder lays out the bytes the spec writes. -/
theorem test_encode_words :
    encode Opcodes.standard (.movRegMem 1 0x0030) = [0x12, 0x01, 0x00, 0x30] ∧
    encode Opcodes.standard (.jmpNotEq 3 0) = [0x15, 0x00, 0x03, 0x00, 0x00] := by decide

/-! ### The host's two questions: every row decodes, and runs as the first instruction after reset -/

theorem test_first_step_movLitReg :
    after (State.reset.withFetchWord 32 0x02341210) (look2 .ip .r0) = some (4, 0x1234, none) := by decide
theorem test_first_step_movRegReg :
    after (State.reset.withFetchWord 24 0x020011) (look2 .ip .r0) = some (3, 3, none) := by decide
theorem test_first_step_movRegMem :
    after (State.reset.withFetchWord 32 0x30000012) (lookMem 0x0030) = some (0, 4, 4, 0) := by decide
theorem test_first_step_movMemReg :
    after (State.reset.withFetchWord 32 0x02000013) (look2 .ip .r0) = some (4, 0x1300, none) := by decide
theorem test_first_step_addRegReg :
    after (State.reset.withFetchWord 24 0x000014) (look2 .ip .acc) = some (3, 6, none) := by decide
theorem test_first_step_jmpNotEq :
    after (State.reset.withFetchWord 40 0x2000010015) lookFault = some (0x0020, none) := by decide
/-- After reset `sp` is 0, so the first push faults as R170 says (S4). -/
theorem test_first_step_pshLit :
    after (State.reset.withFetchWord 24 0xEFBE17) lookFault = some (3, some (.outOfBounds 0 .stackPush 0)) := by decide
theorem test_first_step_pshReg :
    after (State.reset.withFetchWord 16 0x0218) lookFault = some (2, some (.outOfBounds 0 .stackPush 0)) := by decide
theorem test_first_step_pop :
    after (State.reset.withFetchWord 16 0x021A) (look2 .r0 .sp) = some (0x0000, 2, none) := by decide
/-- T1: with nothing placed, the first step after reset is the fault of the undefined opcode 0x00. -/
theorem test_first_step_of_empty_memory :
    after State.reset lookFault = some (1, some (.illegalOpcode 0x00 0)) := by decide

/-! ### One step of each instruction, two vectors each -/

theorem test_M2_literal_to_ip_jumps :
    after (machine 64 0 [0x10, 0x00, 0x10, 0x00] []) lookFault = some (0x0010, none) := by decide
theorem test_M5_fetch16_is_atomic :
    after (machine 2 0 [0x10, 0x12] []) lookFault = some (1, some (.outOfBounds 1 .fetch 0)) := by decide

theorem test_M8_source_ip_reads_next :
    after (machine 64 0x20 [0x11, 0x00, 0x02] []) (look2 .ip .r0) = some (0x0023, 0x0023, none) := by decide
theorem test_M10_first_bad_index :
    after (machine 64 0 [0x11, 0x0C, 0x0D] []) lookFault = some (3, some (.unknownRegister 12 0)) := by decide

theorem test_M15_highest_store :
    after (machine 64 0 [0x12, 0x02, 0x00, 0x3E] [(.r0, 0xABCD)]) (lookMem 0x3E) = some (0xAB, 0xCD, 4, 0) := by decide
theorem test_M14_store_at_the_last_byte :
    after (machine 64 0 [0x12, 0x02, 0x00, 0x3F] [(.r0, 0xABCD)]) lookFault =
      some (4, some (.outOfBounds 63 .dataWrite 0)) := by decide

theorem test_M21_load :
    after (withBytes (machine 64 0 [0x13, 0x00, 0x30, 0x02] []) 0x30 [0xAB, 0xCD]) (look2 .ip .r0) =
      some (4, 0xABCD, none) := by decide
theorem test_M22_load_does_not_wrap :
    after (machine 64 0 [0x13, 0xFF, 0xFF, 0x02] []) lookFault = some (4, some (.outOfBounds 65535 .dataRead 0)) := by
  decide

theorem test_A5_add_wraps :
    after (machine 64 0 [0x14, 0x01, 0x01] [(.acc, 0xFFFF)]) (look2 .ip .acc) = some (3, 0xFFFE, none) := by decide
theorem test_A6_add_ip :
    after (machine 64 0x10 [0x14, 0x00, 0x00] []) (look2 .ip .acc) = some (0x0013, 0x0026, none) := by decide

theorem test_J1_equal_falls_through :
    after (machine 64 0x10 [0x15, 0x00, 0x05, 0x00, 0x20] [(.acc, 5)]) (look2 .ip .acc) = some (0x0015, 5, none) := by
  decide
theorem test_J6_all_bits_compared :
    after (machine 64 0 [0x15, 0x01, 0x05, 0x00, 0x20] [(.acc, 5)]) (look2 .ip .acc) = some (0x0020, 5, none) := by decide

theorem test_S6_lowest_push :
    after (machine 32 0 [0x17, 0xBE, 0xEF] [(.sp, 2)]) (lookMem 2) = some (0xBE, 0xEF, 3, 0) := by decide
theorem test_S7_push_above_memory :
    after (machine 32 0 [0x17, 0xBE, 0xEF] [(.sp, 0x1F)]) lookFault = some (3, some (.outOfBounds 31 .stackPush 0)) := by
  decide

theorem test_S14_push_sp :
    after (machine 32 0 [0x18, 0x0A] [(.sp, 0x1E)]) (lookMem 0x1E) = some (0x00, 0x1E, 2, 0x1C) := by decide
theorem test_S16_register_before_stack :
    after (machine 32 0 [0x18, 0x0C] []) lookFault = some (2, some (.unknownRegister 12 0)) := by decide

theorem test_S12_pop_sp :
    after (withBytes (machine 32 0 [0x1A, 0x0A] [(.sp, 0x1C)]) 0x1E [0x00, 0x10]) (look2 .ip .sp) =
      some (2, 0x0010, none) := by decide
theorem test_S19_pop_does_not_wrap :
    after (machine 32 0 [0x1A, 0x02] [(.sp, 0xFFFF)]) lookFault = some (2, some (.outOfBounds 65537 .stackPop 0)) := by
  decide

/-! ### Fetch and step -/

theorem test_T2_permissive_no_op : after (permissive (machine 16 0 [0x00] [])) lookFault = some (1, none) := by decide
theorem test_T7_operand_fetch_at_the_end :
    after (machine 16 0x0E [0x10, 0x12] []) lookFault = some (0x000F, some (.outOfBounds 15 .fetch 14)) := by decide
theorem test_T6_ip_does_not_wrap :
    after (machine 16 0xFFFF [] []) lookFault = some (0xFFFF, some (.outOfBounds 65535 .fetch 0xFFFF)) := by decide
theorem test_A12_second_operand_outside :
    after (machine 2 0 [0x14, 0x02] []) lookFault = some (2, some (.outOfBounds 2 .fetch 0)) := by decide

/-- R210, R226: the numeric codes, the same for a fault and for the error of a command. -/
theorem test_fault_codes :
    (Fault.unknownRegister 12 0).code = 1 ∧ (Fault.outOfBounds 0 .fetch 0).code = 2 ∧
    (Fault.illegalOpcode 0 0).code = 3 ∧ CommandError.unknownRegister.code = 1 ∧
    (CommandError.outOfBounds none).code = 2 ∧ (CommandError.outOfBounds (some (16, .peek))).code = 2 := by decide

/-! ### Host commands (H2, H5, H6, H7, H8) and the driver's loop -/

theorem test_H2_load :
    (((State.launch Config.standard 16).command (.load [0x1A, 0x02, 0xFE, 0x00])).1).memSize = 4 ∧
    (((State.launch Config.standard 16).command (.load [0x1A, 0x02, 0xFE, 0x00])).1).readReg .sp = 2 := by decide
theorem test_H5_short_load_refused :
    (State.reset.command (.load [0xFE])).2 = .error (.refusedLoad 1) ∧
    (State.reset.command (.load [])).2 = .error (.refusedLoad 0) := by decide
theorem test_H6_unknown_register :
    (State.reset.command (.regSet (.index 12) 1)).2 = .error .unknownRegister ∧
    (State.reset.command (.regGet (.name "r8"))).2 = .error .unknownRegister := by decide
theorem test_H7_mem_read :
    ((State.launch Config.standard 16).command (.memRead 14 2)).2 = .bytes [0, 0] ∧
    ((State.launch Config.standard 16).command (.memRead 15 2)).2 = .error (.outOfBounds none) ∧
    ((State.launch Config.standard 16).command (.memRead 16 0)).2 = .bytes [] := by decide
theorem test_H8_next_equals_outside :
    ((machine 16 0x10 [] []).command (.nextEquals 0xFE)).2 = .error (.outOfBounds (some (16, .peek))) := by decide
/-- E8: the sentinel at `ip` is HALTED, with no step made. -/
theorem test_E8_halted : (machine 16 0 [0xFE] []).status = .halted := by decide

/-! ### The assembler's text and image (R94, R95; program P5) -/

theorem test_instrText :
    instrText (.movRegMem 2 0x0008) = "MOV_REG_MEM r0, [0x0008]" ∧
    instrText (.movLitReg 0x1234 12) = "MOV_LIT_REG 0x1234, reg#12" := by decide
theorem test_assemble_P4 :
    assemble Opcodes.standard [.insn (.pop 2) none none, .byte 0xFE, .byte 0x00] = some [0x1A, 0x02, 0xFE, 0x00] := by
  decide
/-- P3: a label as a literal stands for its address. -/
theorem test_assemble_label :
    assemble Opcodes.standard [.insn (.pshLit 0) (some "ret") none, .zero 1, .label "ret", .word 0x1234] =
      some [0x17, 0x00, 0x04, 0x00, 0x12, 0x34] := by decide

/-! ### Witnesses: for each obligation with hypotheses, states and operands that meet them, clause by clause -/

theorem starts_of {s : State} {m : Mnemonic}
    (h : s.fault = none ∧ s.config.opc.Distinct ∧ s.pc < s.size ∧ s.codeByte 0 = s.config.opc.value m) : s.Starts m :=
  ⟨h.1, h.2.1, h.2.2.1, h.2.2.2⟩

theorem latched_of {s : State} {f : Fault} (h : after s State.fault = some (some f)) :
    s.fault = none → ∃ t, s.fault = none ∧ step s = .next t ∧ t.fault = some f := by
  intro hf
  unfold after at h
  split at h
  · rename_i t ht
    exact ⟨t, hf, ht, by simpa using h⟩
  · cases h
  · cases h

theorem witness_DecodeEncodeRoundTrip :
    Opcodes.standard.Distinct ∧ Opcodes.Distinct ⟨0x00, 0x01, 0x02, 0x03, 0x04, 0x05, 0x06, 0x07, 0xFF⟩ := by decide

theorem witness_DecodedBytesAreTheEncoding :
    decode Opcodes.standard [0x1A, 0x03, 0xFF] = .ok (.pop 3, [0xFF]) := rfl

theorem witness_OpcodeFixesTheLength :
    Opcodes.standard.select 0x16 = none ∧
    (Opcodes.standard.select 0x18 = some .pshReg ∧ Mnemonic.pshReg.length ≤ [(0x0C : Byte)].length + 1) ∧
    (Opcodes.standard.select 0x18 = some .pshReg ∧ ([] : List Byte).length + 1 < Mnemonic.pshReg.length) := by decide

theorem witness_RegisterAccessByIndex : (11 : Byte).toNat ≤ 11 ∧ 12 ≤ (12 : Byte).toNat := by decide

/-- Four cells of memory, at `ip = 3` an addition's opcode byte. -/
def small : State := machine 4 3 [0x14] []

theorem witness_MemoryReadRule : small.size ≤ 4 ∧ 3 < small.size ∧ small.size ≤ 3 + 1 ∧ 2 + 1 < small.size := by decide

theorem witness_MemoryWriteRule :
    small.mem.wf = true ∧ small.size ≤ 4 ∧ 3 < small.size ∧ small.size ≤ 3 + 1 ∧ 2 + 1 < small.size := by decide

theorem witness_MixedWidthView :
    small.mem.wf = true ∧ (∃ t, small.memWrite2 1 0x1234 .dataWrite 0 = .ok t) ∧ 1 + 2 < small.size :=
  ⟨by decide, ⟨_, rfl⟩, by decide⟩

theorem witness_FetchByteRule : (machine 4 4 [] []).size ≤ (machine 4 4 [] []).pc ∧ small.pc < small.size := by decide

theorem witness_FetchWordRule :
    small.size ≤ small.pc + 1 ∧ (machine 4 2 [] []).pc + 1 < (machine 4 2 [] []).size := by decide

/-- A whole addition that ends where memory ends. -/
def lastAdd : State := machine 3 0 [0x14, 0x02, 0x0B] []

theorem witness_StepRunsTheDecodedInstruction :
    lastAdd.fault = none ∧ decode lastAdd.config.opc lastAdd.code = .ok (.addRegReg 2 11, []) := ⟨rfl, rfl⟩

theorem witness_FetchesLeaveIpPastTheInstruction :
    lastAdd.fetchInstr = .execute (.addRegReg 2 11) (lastAdd.advance 3) := by decide

theorem witness_NoInstructionRule :
    ((machine 4 4 [] []).fault = none ∧ (machine 4 4 [] []).size ≤ (machine 4 4 [] []).pc) ∧
    ((machine 4 3 [0x16] []).fault = none ∧ (machine 4 3 [0x16] []).pc < (machine 4 3 [0x16] []).size ∧
      (machine 4 3 [0x16] []).config.opc.select ((machine 4 3 [0x16] []).codeByte 0) = none ∧
      (machine 4 3 [0x16] []).config.permissiveIllegal = false ∧
      (permissive (machine 4 3 [0x16] [])).config.permissiveIllegal = true) := by decide

/-- FaultIsPrecise and FaultCauses: a step that latches each fault, under each kind. -/
theorem witness_FaultIsPrecise_fetch :
    ∃ t, small.fault = none ∧ step small = .next t ∧ t.fault = some (.outOfBounds 4 .fetch 3) :=
  latched_of (by decide) rfl
theorem witness_FaultIsPrecise_illegalOpcode :
    ∃ t, (machine 4 3 [0x16] []).fault = none ∧ step (machine 4 3 [0x16] []) = .next t ∧
      t.fault = some (.illegalOpcode 0x16 3) := latched_of (by decide) rfl
theorem witness_FaultIsPrecise_unknownRegister :
    ∃ t, (machine 4 2 [0x18, 0x0C] []).fault = none ∧ step (machine 4 2 [0x18, 0x0C] []) = .next t ∧
      t.fault = some (.unknownRegister 12 2) := latched_of (by decide) rfl
theorem witness_FaultIsPrecise_dataRead :
    ∃ t, (machine 4 0 [0x13, 0x00, 0x03, 0x02] []).fault = none ∧
      step (machine 4 0 [0x13, 0x00, 0x03, 0x02] []) = .next t ∧ t.fault = some (.outOfBounds 3 .dataRead 0) :=
  latched_of (by decide) rfl
theorem witness_FaultIsPrecise_dataWrite :
    ∃ t, (machine 4 0 [0x12, 0x02, 0x00, 0x03] []).fault = none ∧
      step (machine 4 0 [0x12, 0x02, 0x00, 0x03] []) = .next t ∧ t.fault = some (.outOfBounds 3 .dataWrite 0) :=
  latched_of (by decide) rfl
theorem witness_FaultIsPrecise_stackPush :
    ∃ t, (machine 4 0 [0x17, 0x00, 0x00] [(.sp, 1)]).fault = none ∧
      step (machine 4 0 [0x17, 0x00, 0x00] [(.sp, 1)]) = .next t ∧ t.fault = some (.outOfBounds 1 .stackPush 0) :=
  latched_of (by decide) rfl
theorem witness_FaultIsPrecise_stackPop :
    ∃ t, (machine 4 0 [0x1A, 0x02] [(.sp, 1)]).fault = none ∧
      step (machine 4 0 [0x1A, 0x02] [(.sp, 1)]) = .next t ∧ t.fault = some (.outOfBounds 3 .stackPop 0) :=
  latched_of (by decide) rfl

/-- A pop that takes the last two bytes of memory, so `sp + 3 = MEMSIZE - 1`; and the same one cell further. -/
def lastPop : State := machine 8 0 [0x1A, 0x02] [(.sp, 4)]
def emptyPop : State := machine 8 0 [0x1A, 0x02] [(.sp, 5)]

theorem witness_StepIsSafeExactlyWhen : lastPop.Starts .pop ∧ emptyPop.Starts .pop ∧ small.Starts .addRegReg :=
  ⟨starts_of (by decide), starts_of (by decide), starts_of (by decide)⟩
theorem witness_StepIsSafeExactlyWhen_both_sides :
    after lastPop State.fault = some none ∧ after emptyPop State.fault = some (some (.outOfBounds 7 .stackPop 0)) := by
  decide

/-- A machine with a fault latched. -/
def latched : State := small.raise (.unknownRegister 12 0)

theorem witness_LatchIsSticky :
    latched.fault = some (.unknownRegister 12 0) ∧ (∀ n, Command.load [0xFE, 0x00] ≠ .reset n) ∧ 65535 ≤ 65535 :=
  ⟨rfl, by simp, by decide⟩

/-! #### The nine rules: a start for every clause -/

theorem witness_MovLitRegRule_fetch :
    ((machine 2 0 [0x10, 0x12] []).Starts .movLitReg ∧ (machine 2 0 [0x10, 0x12] []).size ≤ 0 + 2) ∧
    ((machine 3 0 [0x10, 0x12, 0x34] []).Starts .movLitReg ∧ 0 + 2 < (machine 3 0 [0x10, 0x12, 0x34] []).size ∧
      (machine 3 0 [0x10, 0x12, 0x34] []).size ≤ 0 + 3) :=
  ⟨⟨starts_of (by decide), by decide⟩, starts_of (by decide), by decide⟩
theorem witness_MovLitRegRule_execute :
    ((machine 4 0 [0x10, 0x12, 0x34, 0x0C] []).Starts .movLitReg ∧
      0 + 3 < (machine 4 0 [0x10, 0x12, 0x34, 0x0C] []).size ∧
      12 ≤ ((machine 4 0 [0x10, 0x12, 0x34, 0x0C] []).codeByte 3).toNat) ∧
    ((machine 4 0 [0x10, 0x12, 0x34, 0x00] []).Starts .movLitReg ∧
      Reg.ofIndex ((machine 4 0 [0x10, 0x12, 0x34, 0x00] []).codeByte 3) = some .ip) :=
  ⟨⟨starts_of (by decide), by decide⟩, starts_of (by decide), by decide⟩

theorem witness_MovRegRegRule_fetch :
    ((machine 1 0 [0x11] []).Starts .movRegReg ∧ (machine 1 0 [0x11] []).size ≤ 0 + 1) ∧
    ((machine 2 0 [0x11, 0x02] []).Starts .movRegReg ∧ 0 + 1 < (machine 2 0 [0x11, 0x02] []).size ∧
      (machine 2 0 [0x11, 0x02] []).size ≤ 0 + 2) :=
  ⟨⟨starts_of (by decide), by decide⟩, starts_of (by decide), by decide⟩
theorem witness_MovRegRegRule_execute :
    ((machine 3 0 [0x11, 0x0C, 0x0D] []).Starts .movRegReg ∧
      12 ≤ ((machine 3 0 [0x11, 0x0C, 0x0D] []).codeByte 1).toNat) ∧
    ((machine 3 0 [0x11, 0x0B, 0x0C] []).Starts .movRegReg ∧
      ((machine 3 0 [0x11, 0x0B, 0x0C] []).codeByte 1).toNat ≤ 11 ∧
      12 ≤ ((machine 3 0 [0x11, 0x0B, 0x0C] []).codeByte 2).toNat) ∧
    ((machine 3 0 [0x11, 0x00, 0x0B] []).Starts .movRegReg ∧
      Reg.ofIndex ((machine 3 0 [0x11, 0x00, 0x0B] []).codeByte 1) = some .ip ∧
      Reg.ofIndex ((machine 3 0 [0x11, 0x00, 0x0B] []).codeByte 2) = some .fp) :=
  ⟨⟨starts_of (by decide), by decide⟩, ⟨starts_of (by decide), by decide⟩, starts_of (by decide), by decide⟩

theorem witness_MovRegMemRule_fetch :
    ((machine 1 0 [0x12] []).Starts .movRegMem ∧ (machine 1 0 [0x12] []).mem.wf = true ∧
      (machine 1 0 [0x12] []).size ≤ 0 + 1) ∧
    ((machine 3 0 [0x12, 0x02, 0x00] []).Starts .movRegMem ∧ (machine 3 0 [0x12, 0x02, 0x00] []).mem.wf = true ∧
      0 + 1 < (machine 3 0 [0x12, 0x02, 0x00] []).size ∧ (machine 3 0 [0x12, 0x02, 0x00] []).size ≤ 0 + 3) :=
  ⟨⟨starts_of (by decide), by decide⟩, starts_of (by decide), by decide⟩
theorem witness_MovRegMemRule_execute :
    ((machine 4 0 [0x12, 0x0C, 0x00, 0x00] []).Starts .movRegMem ∧
      12 ≤ ((machine 4 0 [0x12, 0x0C, 0x00, 0x00] []).codeByte 1).toNat) ∧
    ((machine 4 0 [0x12, 0x0B, 0x00, 0x03] []).Starts .movRegMem ∧
      ((machine 4 0 [0x12, 0x0B, 0x00, 0x03] []).codeByte 1).toNat ≤ 11 ∧
      (machine 4 0 [0x12, 0x0B, 0x00, 0x03] []).size ≤
        ((machine 4 0 [0x12, 0x0B, 0x00, 0x03] []).codeWord 2).toNat + 1) ∧
    ((machine 4 0 [0x12, 0x0B, 0x00, 0x02] []).Starts .movRegMem ∧
      ((machine 4 0 [0x12, 0x0B, 0x00, 0x02] []).codeWord 2).toNat + 1 <
        (machine 4 0 [0x12, 0x0B, 0x00, 0x02] []).size ∧
      Reg.ofIndex ((machine 4 0 [0x12, 0x0B, 0x00, 0x02] []).codeByte 1) = some .fp) :=
  ⟨⟨starts_of (by decide), by decide⟩, ⟨starts_of (by decide), by decide⟩, starts_of (by decide), by decide⟩

theorem witness_MovMemRegRule_fetch :
    ((machine 2 0 [0x13, 0x00] []).Starts .movMemReg ∧ (machine 2 0 [0x13, 0x00] []).size ≤ 0 + 2) ∧
    ((machine 3 0 [0x13, 0x00, 0x00] []).Starts .movMemReg ∧ 0 + 2 < (machine 3 0 [0x13, 0x00, 0x00] []).size ∧
      (machine 3 0 [0x13, 0x00, 0x00] []).size ≤ 0 + 3) :=
  ⟨⟨starts_of (by decide), by decide⟩, starts_of (by decide), by decide⟩
theorem witness_MovMemRegRule_execute :
    ((machine 4 0 [0x13, 0x00, 0x00, 0x0C] []).Starts .movMemReg ∧
      12 ≤ ((machine 4 0 [0x13, 0x00, 0x00, 0x0C] []).codeByte 3).toNat) ∧
    ((machine 4 0 [0x13, 0x00, 0x03, 0x0B] []).Starts .movMemReg ∧
      ((machine 4 0 [0x13, 0x00, 0x03, 0x0B] []).codeByte 3).toNat ≤ 11 ∧
      (machine 4 0 [0x13, 0x00, 0x03, 0x0B] []).size ≤
        ((machine 4 0 [0x13, 0x00, 0x03, 0x0B] []).codeWord 1).toNat + 1) ∧
    ((machine 4 0 [0x13, 0x00, 0x02, 0x00] []).Starts .movMemReg ∧
      ((machine 4 0 [0x13, 0x00, 0x02, 0x00] []).codeWord 1).toNat + 1 <
        (machine 4 0 [0x13, 0x00, 0x02, 0x00] []).size ∧
      Reg.ofIndex ((machine 4 0 [0x13, 0x00, 0x02, 0x00] []).codeByte 3) = some .ip) :=
  ⟨⟨starts_of (by decide), by decide⟩, ⟨starts_of (by decide), by decide⟩, starts_of (by decide), by decide⟩

theorem witness_AddRegRegRule_fetch :
    ((machine 1 0 [0x14] []).Starts .addRegReg ∧ (machine 1 0 [0x14] []).size ≤ 0 + 1) ∧
    ((machine 2 0 [0x14, 0x02] []).Starts .addRegReg ∧ 0 + 1 < (machine 2 0 [0x14, 0x02] []).size ∧
      (machine 2 0 [0x14, 0x02] []).size ≤ 0 + 2) :=
  ⟨⟨starts_of (by decide), by decide⟩, starts_of (by decide), by decide⟩
theorem witness_AddRegRegRule_execute :
    ((machine 3 0 [0x14, 0x0C, 0x02] []).Starts .addRegReg ∧
      12 ≤ ((machine 3 0 [0x14, 0x0C, 0x02] []).codeByte 1).toNat) ∧
    ((machine 3 0 [0x14, 0x0B, 0x0C] []).Starts .addRegReg ∧
      ((machine 3 0 [0x14, 0x0B, 0x0C] []).codeByte 1).toNat ≤ 11 ∧
      12 ≤ ((machine 3 0 [0x14, 0x0B, 0x0C] []).codeByte 2).toNat) ∧
    (lastAdd.Starts .addRegReg ∧ Reg.ofIndex (lastAdd.codeByte 1) = some .r0 ∧
      Reg.ofIndex (lastAdd.codeByte 2) = some .fp) :=
  ⟨⟨starts_of (by decide), by decide⟩, ⟨starts_of (by decide), by decide⟩, starts_of (by decide), by decide⟩

theorem witness_JmpNotEqRule_fetch :
    ((machine 2 0 [0x15, 0x00] []).Starts .jmpNotEq ∧ (machine 2 0 [0x15, 0x00] []).size ≤ 0 + 2) ∧
    ((machine 4 0 [0x15, 0x00, 0x05, 0x00] []).Starts .jmpNotEq ∧ 0 + 2 < (machine 4 0 [0x15, 0x00, 0x05, 0x00] []).size ∧
      (machine 4 0 [0x15, 0x00, 0x05, 0x00] []).size ≤ 0 + 4) :=
  ⟨⟨starts_of (by decide), by decide⟩, starts_of (by decide), by decide⟩
theorem witness_JmpNotEqRule_execute :
    ((machine 5 0 [0x15, 0x00, 0x05, 0xFF, 0xFF] []).Starts .jmpNotEq ∧
      (machine 5 0 [0x15, 0x00, 0x05, 0xFF, 0xFF] []).codeWord 1 ≠
        (machine 5 0 [0x15, 0x00, 0x05, 0xFF, 0xFF] []).readReg .acc) ∧
    ((machine 5 0 [0x15, 0x00, 0x05, 0xFF, 0xFF] [(.acc, 5)]).Starts .jmpNotEq ∧
      (machine 5 0 [0x15, 0x00, 0x05, 0xFF, 0xFF] [(.acc, 5)]).codeWord 1 =
        (machine 5 0 [0x15, 0x00, 0x05, 0xFF, 0xFF] [(.acc, 5)]).readReg .acc) :=
  ⟨⟨starts_of (by decide), by decide⟩, starts_of (by decide), by decide⟩

theorem witness_PshLitRule_fault :
    ((machine 2 0 [0x17, 0xBE] []).Starts .pshLit ∧ (machine 2 0 [0x17, 0xBE] []).mem.wf = true ∧
      (machine 2 0 [0x17, 0xBE] []).size ≤ 0 + 2) ∧
    ((machine 8 0 [0x17, 0xBE, 0xEF] [(.sp, 1)]).Starts .pshLit ∧ (machine 8 0 [0x17, 0xBE, 0xEF] [(.sp, 1)]).sp < 2) ∧
    ((machine 8 0 [0x17, 0xBE, 0xEF] [(.sp, 7)]).Starts .pshLit ∧
      (machine 8 0 [0x17, 0xBE, 0xEF] [(.sp, 7)]).size ≤ (machine 8 0 [0x17, 0xBE, 0xEF] [(.sp, 7)]).sp + 1) :=
  ⟨⟨starts_of (by decide), by decide⟩, ⟨starts_of (by decide), by decide⟩, starts_of (by decide), by decide⟩
theorem witness_PshLitRule_execute :
    ((machine 8 0 [0x17, 0xBE, 0xEF] [(.sp, 2)]).Starts .pshLit ∧
      (machine 8 0 [0x17, 0xBE, 0xEF] [(.sp, 2)]).mem.wf = true ∧ 2 ≤ (machine 8 0 [0x17, 0xBE, 0xEF] [(.sp, 2)]).sp) ∧
    ((machine 8 0 [0x17, 0xBE, 0xEF] [(.sp, 6)]).Starts .pshLit ∧
      (machine 8 0 [0x17, 0xBE, 0xEF] [(.sp, 6)]).mem.wf = true ∧
      (machine 8 0 [0x17, 0xBE, 0xEF] [(.sp, 6)]).sp + 1 < (machine 8 0 [0x17, 0xBE, 0xEF] [(.sp, 6)]).size) :=
  ⟨⟨starts_of (by decide), by decide⟩, starts_of (by decide), by decide⟩

theorem witness_PshRegRule_fault :
    ((machine 1 0 [0x18] []).Starts .pshReg ∧ (machine 1 0 [0x18] []).mem.wf = true ∧
      (machine 1 0 [0x18] []).size ≤ 0 + 1) ∧
    ((machine 8 0 [0x18, 0x0C] []).Starts .pshReg ∧ 12 ≤ ((machine 8 0 [0x18, 0x0C] []).codeByte 1).toNat) ∧
    ((machine 8 0 [0x18, 0x0B] [(.sp, 7)]).Starts .pshReg ∧
      ((machine 8 0 [0x18, 0x0B] [(.sp, 7)]).codeByte 1).toNat ≤ 11 ∧
      (machine 8 0 [0x18, 0x0B] [(.sp, 7)]).size ≤ (machine 8 0 [0x18, 0x0B] [(.sp, 7)]).sp + 1) :=
  ⟨⟨starts_of (by decide), by decide⟩, ⟨starts_of (by decide), by decide⟩, starts_of (by decide), by decide⟩
theorem witness_PshRegRule_execute :
    (machine 8 0 [0x18, 0x0A] [(.sp, 6)]).Starts .pshReg ∧ (machine 8 0 [0x18, 0x0A] [(.sp, 6)]).mem.wf = true ∧
      2 ≤ (machine 8 0 [0x18, 0x0A] [(.sp, 6)]).sp ∧
      (machine 8 0 [0x18, 0x0A] [(.sp, 6)]).sp + 1 < (machine 8 0 [0x18, 0x0A] [(.sp, 6)]).size ∧
      Reg.ofIndex ((machine 8 0 [0x18, 0x0A] [(.sp, 6)]).codeByte 1) = some .sp :=
  ⟨starts_of (by decide), by decide⟩

theorem witness_PopRule_fault :
    ((machine 1 0 [0x1A] []).Starts .pop ∧ (machine 1 0 [0x1A] []).size ≤ 0 + 1) ∧
    ((machine 8 0 [0x1A, 0x0C] []).Starts .pop ∧ 12 ≤ ((machine 8 0 [0x1A, 0x0C] []).codeByte 1).toNat) ∧
    (emptyPop.Starts .pop ∧ (emptyPop.codeByte 1).toNat ≤ 11 ∧ emptyPop.size ≤ emptyPop.sp + 3) :=
  ⟨⟨starts_of (by decide), by decide⟩, ⟨starts_of (by decide), by decide⟩, starts_of (by decide), by decide⟩
theorem witness_PopRule_execute :
    lastPop.Starts .pop ∧ lastPop.sp + 3 < lastPop.size ∧ Reg.ofIndex (lastPop.codeByte 1) = some .r0 :=
  ⟨starts_of (by decide), by decide⟩

/-! #### Completion, traps and frames -/

theorem witness_RegisterMovesComplete : Reg.ofIndex 11 = some .fp ∧ Reg.ofIndex 0 = some .ip := by decide

theorem witness_MemoryMovesComplete :
    Reg.ofIndex 11 = some .fp ∧ (2 : Word).toNat + 1 < small.size ∧ small.mem.wf = true := by decide

theorem witness_AddAndJumpComplete : Reg.ofIndex 0 = some .ip ∧ Reg.ofIndex 11 = some .fp := by decide

theorem witness_StackInstructionsComplete :
    (lastPop.mem.wf = true ∧ 2 ≤ lastPop.sp ∧ lastPop.sp + 1 < lastPop.size) ∧
    (Reg.ofIndex 10 = some .sp ∧ lastPop.sp + 3 < lastPop.size) := by decide

theorem witness_FirstBadRegisterIsReported :
    (Instr.movRegReg 12 13).regOperands.find? (fun b => !namesRegister b) = some 12 ∧
    (Instr.addRegReg 11 255).regOperands.find? (fun b => !namesRegister b) = some 255 := by decide

theorem witness_BadAccessIsReported :
    (11 : Byte).toNat ≤ 11 ∧ small.size ≤ (3 : Word).toNat + 1 ∧ small.sp < 2 ∧
    (machine 8 0 [] [(.sp, 7)]).size ≤ (machine 8 0 [] [(.sp, 7)]).sp + 1 ∧ emptyPop.size ≤ emptyPop.sp + 3 := by decide

theorem witness_FrameOfNonStoringInstructions :
    (Instr.pop 2).mnemonic ∈ [Mnemonic.movLitReg, .movRegReg, .movMemReg, .addRegReg, .jmpNotEq, .pop] ∧
    (∃ t, exec (.pop 2) lastPop = .next t) ∧ ∃ t, exec (.pop 2) emptyPop = .next t :=
  ⟨by decide, ⟨_, rfl⟩, _, rfl⟩

theorem witness_FrameOfStoringInstructions :
    lastPop.mem.wf = true ∧ (∃ t, exec (.movRegMem 2 6) lastPop = .next t) ∧
    (Instr.pshReg 10).mnemonic ∈ [Mnemonic.pshLit, .pshReg] ∧ ∃ t, exec (.pshReg 10) lastPop = .next t :=
  ⟨by decide, ⟨_, rfl⟩, by decide, _, rfl⟩

theorem witness_OnlyWritersWriteRegisters :
    ∃ t, step lastPop = .next t ∧ t.readReg .sp ≠ lastPop.readReg .sp ∧ Reg.sp ≠ .ip :=
  ⟨_, rfl, by decide, by decide⟩

/-! #### Control transfer, the laws and the host interface -/

theorem witness_WritingIndexZeroJumps :
    Reg.ofIndex 11 = some .fp ∧ (6 : Word).toNat + 1 < lastPop.size ∧ lastPop.sp + 3 < lastPop.size ∧
    ∃ t, exec (.addRegReg 2 3) lastPop = .next t := ⟨by decide, by decide, by decide, _, rfl⟩

theorem witness_TargetsAreCheckedByTheNextFetch :
    (small.fault = none ∧ small.size ≤ (4 : Word).toNat ∧ (1 : Word) ≠ small.readReg .acc) ∧
    (small.size ≤ (6 : Word).toNat ∧ Reg.ofIndex 0 = some .ip ∧ small.sourceValue 3 .ip = 6) := by decide
/-- Two bytes of memory, and of the stack, that hold 8, the first address outside. -/
theorem witness_TargetsAreCheckedByTheNextFetch_memory :
    (withBytes lastPop 6 [0x00, 0x08]).fault = none ∧ (withBytes lastPop 6 [0x00, 0x08]).size ≤ (8 : Word).toNat ∧
    (6 : Word).toNat + 1 < (withBytes lastPop 6 [0x00, 0x08]).size ∧
    (withBytes lastPop 6 [0x00, 0x08]).sp + 3 < (withBytes lastPop 6 [0x00, 0x08]).size ∧
    (withBytes lastPop 6 [0x00, 0x08]).sp + 2 = (6 : Word).toNat ∧
    joinBytes ((withBytes lastPop 6 [0x00, 0x08]).mem.read 6) ((withBytes lastPop 6 [0x00, 0x08]).mem.read 7) = 8 := by
  decide

/-- A store and a push whose two bytes come right after the instruction, the first the next step can fetch; and a push
whose high byte is the last of the five it can. -/
theorem witness_StoreIsSeenByTheNextFetch :
    (lastPop.mem.wf = true ∧ Reg.ofIndex 11 = some .fp ∧ (4 : Word) = lastPop.readReg .ip + 4 ∧
      (4 : Word).toNat + 1 < lastPop.size) ∧
    ((machine 16 0 [] [(.sp, 3)]).mem.wf = true ∧ 2 ≤ (machine 16 0 [] [(.sp, 3)]).sp ∧
      (machine 16 0 [] [(.sp, 3)]).sp + 1 < (machine 16 0 [] [(.sp, 3)]).size) ∧
    ((machine 16 0 [] [(.sp, 6)]).mem.wf = true ∧ Reg.ofIndex 10 = some .sp ∧ 2 ≤ (machine 16 0 [] [(.sp, 6)]).sp ∧
      (machine 16 0 [] [(.sp, 6)]).sp + 1 < (machine 16 0 [] [(.sp, 6)]).size) := by decide

theorem witness_MemoryRoundTrip :
    lastPop.mem.wf = true ∧ Reg.ofIndex 0 = some .ip ∧ Reg.ofIndex 11 = some .fp ∧ (6 : Word).toNat + 1 < lastPop.size := by
  decide

theorem witness_StackLaw :
    lastPop.mem.wf = true ∧ (∃ t, lastPop.pushAll 0 [0x1234, 0xABCD] = .ok t) ∧
    [(0x1234 : Word), 0xABCD].getLast? = some 0xABCD := ⟨by decide, ⟨_, rfl⟩, rfl⟩

/-- StepKeepsInv and CommandsKeepInv: a state with memory listed and a fault latched meets the invariant, and steps. -/
theorem witness_StepKeepsInv : State.Inv latched ∧ State.Inv lastPop ∧ ∃ t, step lastPop = .next t :=
  ⟨⟨by decide, by decide, fun f h => by cases h; show 12 ≤ (12 : Byte).toNat; decide⟩,
    ⟨by decide, by decide, fun f h => by cases h⟩, _, rfl⟩

theorem witness_MemSizeIsSetByResetAndLoadOnly :
    65535 ≤ 65535 ∧ 2 ≤ (List.replicate 65535 (0xFE : Byte)).length ∧
    (List.replicate 65535 (0xFE : Byte)).length ≤ 65535 ∧ (∀ n, Command.step ≠ .reset n) ∧
    (∀ p, Command.step ≠ .load p) ∧ ∃ t, step lastPop = .next t :=
  ⟨by decide, by rw [List.length_replicate]; omega, by rw [List.length_replicate], by simp, by simp, _, rfl⟩

theorem witness_ResetCommandRule : 65535 ≤ 65535 ∧ 0 ≤ 65535 ∧ 65535 < 65536 := by decide

/-- LoadCommandRule and BootState: programs of 2 and of 65535 bytes, and of 1 and 65536. -/
theorem witness_LoadCommandRule :
    (2 ≤ [(0xFE : Byte), 0x00].length ∧ [(0xFE : Byte), 0x00].length ≤ 65535) ∧
    (2 ≤ (List.replicate 65535 (0xFE : Byte)).length ∧ (List.replicate 65535 (0xFE : Byte)).length ≤ 65535) ∧
    [(0xFE : Byte)].length < 2 ∧ 65535 < (List.replicate 65536 (0xFE : Byte)).length :=
  ⟨by decide, ⟨by rw [List.length_replicate]; omega, by rw [List.length_replicate]⟩, by decide,
    by rw [List.length_replicate]; omega⟩

theorem witness_NextEqualsRule : (machine 4 4 [] []).size ≤ (machine 4 4 [] []).pc ∧ small.pc < small.size := by decide

theorem witness_RegGetSetRule :
    RegSelector.index 11 = .index (Reg.fp).index.toNat ∧ RegSelector.name "fp" = .name (Reg.fp).name ∧
    (∀ r : Reg, RegSelector.index 12 ≠ .name r.name ∧ RegSelector.index 12 ≠ .index r.index.toNat) ∧
    (∀ r : Reg, RegSelector.name "r8" ≠ .name r.name ∧ RegSelector.name "r8" ≠ .index r.index.toNat) :=
  ⟨by decide, by decide, fun r => by cases r <;> decide, fun r => by cases r <;> decide⟩

theorem witness_MemReadCommandRule : 4 + 0 ≤ small.size ∧ 2 + 2 ≤ small.size ∧ small.size < 3 + 2 := by decide

theorem witness_StepCommandReports : latched.fault = some (.unknownRegister 12 0) := by decide

theorem witness_HostErrorsChangeNothing :
    small.command (.reset 65536) = (small, .error (.refusedReset 65536)) ∧
    small.command (.load [0xFE]) = (small, .error (.refusedLoad 1)) ∧
    small.command (.regGet (.index 12)) = (small, .error .unknownRegister) ∧
    small.command (.regSet (.name "r8") 0) = (small, .error .unknownRegister) ∧
    (machine 4 4 [] []).command (.nextEquals 0) = (machine 4 4 [] [], .error (.outOfBounds (some (4, .peek)))) ∧
    small.command (.memRead 3 2) = (small, .error (.outOfBounds none)) := by decide

theorem witness_RunLoopRule :
    latched.status ≠ .running ∧ small.status = .running ∧ ∃ t, step small = .next t := ⟨by decide, by decide, _, rfl⟩

/-- LaunchParametersNeverChange: a state that steps. -/
theorem witness_LaunchParametersNeverChange : ∃ t, step lastAdd = .next t := ⟨_, rfl⟩

end Sys2Proof.Tests
end

/-! The step is total (R14, R119): whichever way its fetch phase ends, it answers a next state. -/

namespace Sys2Proof.Machine

/-- R112 answers a next state: the one the fetch phase ended in, or the one the fetched instruction answers. -/
theorem stepUnlatched_next (s : State) : ∃ t, stepUnlatched s = .next t := by
  cases hfetch : s.fetchInstr with
  | ended t => exact ⟨t, stepUnlatched_ended hfetch⟩
  | execute i u =>
    rw [stepUnlatched_execute hfetch]
    exact exec_next i s

/-- Settles O17: a latched state is its own next state, and an unlatched one steps as R112 says. -/
theorem stepAnswersNext : Obligations.StepAnswersNext := by
  intro s
  cases hlatch : s.fault with
  | some f => exact ⟨s, step_latched hlatch⟩
  | none =>
    rw [step_unlatched hlatch]
    exact stepUnlatched_next s

end Sys2Proof.Machine

/-! Registers and their views (R21 to R25, R29): what a register write keeps, and the 24-byte buffer. -/

namespace Sys2Proof.Machine

/-- A write to one of the registers that may change keeps the others (R25). -/
theorem RegsKept.writeReg {s t : State} {l : List Reg} {r : Reg} {v : Word} (h : RegsKept s t l) (hr : r ∈ l) :
    RegsKept s (t.writeReg r v) l := by
  intro q hq
  have hne : q ≠ r := fun e => hq (e ▸ hr)
  simp [hne, h q hq]

/-- Writing a register changes nothing else (R25). -/
theorem State.writeReg_onlyChanges (s : State) (r : Reg) (v : Word) : OnlyChanges s (s.writeReg r v) [r] [] :=
  ⟨RegsKept.writeReg (fun _ _ => rfl) (List.mem_singleton_self r), fun _ _ => rfl, ⟨rfl, rfl⟩, rfl⟩

/-- A byte names a register exactly if it is that register's index (R21). -/
theorem Reg.ofIndex_eq_some {i : Byte} {r : Reg} : Reg.ofIndex i = some r ↔ i = r.index :=
  ⟨Reg.eq_index_of_ofIndex, fun h => h ▸ Reg.ofIndex_index r⟩

@[simp] theorem RegFile.length_buffer (f : RegFile) : f.buffer.length = 24 := rfl

/-- The two bytes of the buffer from offset `2i` on are those of register `i` (R29). -/
theorem RegFile.buffer_slice (f : RegFile) (r : Reg) :
    (f.buffer.drop (2 * r.index.toNat)).take 2 = wordBytes (f.get r) := by
  cases r <;> rfl

/-- The high byte of register `i` stands at offset `2i` (R29). -/
theorem RegFile.buffer_hiByte (f : RegFile) (r : Reg) : f.buffer[2 * r.index.toNat]? = some (hiByte (f.get r)) := by
  have hslice := congrArg (·[0]?) (f.buffer_slice r)
  simpa [wordBytes] using hslice

/-- The low byte of register `i` stands at offset `2i + 1` (R29). -/
theorem RegFile.buffer_loByte (f : RegFile) (r : Reg) : f.buffer[2 * r.index.toNat + 1]? = some (loByte (f.get r)) := by
  have hslice := congrArg (·[1]?) (f.buffer_slice r)
  simpa [wordBytes] using hslice

/-- Settles O6: the offsets of the table are `2i`, where the buffer holds the register's two bytes. -/
theorem registerIndexMap : Obligations.RegisterIndexMap := by
  refine ⟨by decide, fun i => ⟨fun r => Reg.ofIndex_eq_some, Reg.ofIndex_eq_none⟩, fun f p hp => ?_⟩
  have hoffset : p.2 = 2 * p.1.index.toNat := by
    revert p
    decide
  rw [hoffset]
  exact f.buffer_slice p.1

/-- Settles O7: the register is its two bytes of the buffer joined again. -/
theorem registerBackingStore : Obligations.RegisterBackingStore := by
  refine fun f => ⟨f.length_buffer, fun r => ⟨f.buffer_hiByte r, f.buffer_loByte r, ?_⟩⟩
  simp [List.getD_eq_getElem?_getD, f.buffer_hiByte, f.buffer_loByte]

/-- Settles O8: the operand check finds the register of an index up to 11 and refuses every other. -/
theorem registerAccessByIndex : Obligations.RegisterAccessByIndex := by
  refine fun s insn i v => ⟨fun h => ?_, fun h => operandReg_error.mpr ⟨h, rfl⟩⟩
  obtain ⟨r, hr⟩ := Option.isSome_iff_exists.mp (Reg.ofIndex_isSome.mpr h)
  exact ⟨r, operandReg_of hr, (Reg.eq_index_of_ofIndex hr).symm, by simp, s.writeReg_onlyChanges r v⟩

end Sys2Proof.Machine

/-! The fetch phase took the encoding of its instruction from memory (R96, R114 phase 1). -/

namespace Sys2Proof.Machine

/-- The encoding of the instruction at `ip` is the bytes at `ip` (R91, R96). -/
theorem State.encode_instrAt {s : State} {m : Mnemonic} (hm : s.config.opc.select (s.codeByte 0) = some m) :
    encode s.config.opc (s.instrAt m) = (List.range m.length).map s.codeByte := by
  have hop : s.config.opc.value m = s.codeByte 0 := Opcodes.value_of_select hm
  rw [encode, State.instrAt_mnemonic, hop, Mnemonic.length_eq]
  cases m <;> simp [State.instrAt, encodeOperands, wordBytes, State.codeWord, List.range_succ]

/-- Settles O15: a completed fetch phase stands at the end of the instruction at `ip`, inside memory. -/
theorem fetchesLeaveIpPastTheInstruction : Obligations.FetchesLeaveIpPastTheInstruction := by
  intro s t i h
  obtain ⟨m, hm, hl, rfl, rfl⟩ := State.of_fetchInstr_execute h
  have hbyte : ∀ k, k < m.length → (encode s.config.opc (s.instrAt m))[k]? = some (s.codeByte k) := by
    intro k hk
    simp [State.encode_instrAt hm, hk]
  have hpos : 0 < m.length := by
    unfold Mnemonic.length
    omega
  rw [State.instrAt_length]
  exact ⟨State.advance_pc hl, hl, State.advance_onlyChanges s _, hbyte 0 hpos, hbyte⟩

end Sys2Proof.Machine

/-! What every step keeps: MEMSIZE, the launch parameters, the registers it does not name, and the invariant. All of it
is read off `step_outcome`. -/

namespace Sys2Proof.Machine

@[simp] theorem State.advance_zero (s : State) : s.advance 0 = s := by
  simp only [State.advance, State.writeReg, State.readReg, BitVec.add_zero, RegFile.set_get_self]

/-- The fault of an access has a kind a step can latch, and a 16-bit address or, for a pop, one of at most 65537
(R66, R211). -/
theorem State.accessFault_plausible {s : State} {i : Instr} {f : Fault} (cfg : Config) (h : s.accessFault i = some f) :
    f.Plausible cfg := by
  have hsp : s.sp < 65536 := (s.readReg .sp).isLt
  cases i <;> cases h
  case movRegMem src addr =>
    have := addr.isLt
    exact ⟨by decide, by omega, fun _ => by omega⟩
  case movMemReg addr dst =>
    have := addr.isLt
    exact ⟨by decide, by omega, fun _ => by omega⟩
  case pshLit lit => exact ⟨by decide, by omega, fun _ => by omega⟩
  case pshReg src => exact ⟨by decide, by omega, fun _ => by omega⟩
  case pop dst => exact ⟨by decide, by omega, fun h => absurd rfl h⟩

/-- The fault of a fetch at an address of at most MEMSIZE, or at `ip` itself, has a 16-bit address (R110, R211). -/
theorem Fault.fetch_plausible (cfg : Config) {a : Nat} (insn : Word) (h : a ≤ 65535) :
    (Fault.outOfBounds a .fetch insn).Plausible cfg :=
  ⟨by decide, by omega, fun _ => h⟩

/-- Every step, from every state: it moves at most `ip` (a latched machine, a permissive no-op); or it raises a plausible
fault and moves at most `ip`; or it completes the instruction the bytes at `ip` decode to. -/
theorem step_outcome {s t : State} (h : step s = .next t) :
    (∃ n, t = s.advance n) ∨
    (∃ n f, f.Plausible s.config ∧ t = (s.advance n).raise f) ∨
    (∃ i rest, decode s.config.opc s.code = .ok (i, rest) ∧ i.wellFormed = true ∧ s.AccessInBounds i ∧
      exec i s = .next t) := by
  have hpc := (s.readReg .ip).isLt
  have hsize := s.memSize.isLt
  cases hlatch : s.fault with
  | some f =>
    rw [step_latched hlatch] at h
    cases h
    exact .inl ⟨0, s.advance_zero.symm⟩
  | none =>
    rcases step_forms hlatch h with ⟨_, rfl⟩ | ⟨_, _, _, rfl⟩ | ⟨_, hop, hstrict, rfl⟩ | ⟨m, hin, _, hl, rfl⟩ |
      ⟨m, hm, hl, he⟩
    · exact .inr (.inl ⟨0, _, Fault.fetch_plausible _ _ (Nat.le_of_lt_succ hpc), by rw [s.advance_zero]⟩)
    · exact .inl ⟨1, rfl⟩
    · exact .inr (.inl ⟨1, .illegalOpcode _ _, ⟨hstrict, hop⟩, rfl⟩)
    · have hbound := (missingOffset_bounds hin hl).1
      exact .inr (.inl ⟨_, _, Fault.fetch_plausible _ _ (hbound.trans (Nat.le_of_lt_succ hsize)), rfl⟩)
    · rcases exec_cases s (s.instrAt m) with ⟨hw, ha⟩ | ⟨index, h12, _, hx⟩ | ⟨_, _, f, hf, hx⟩
      · obtain ⟨rest, hdecode⟩ := State.decode_code hm hl
        exact .inr (.inr ⟨_, rest, hdecode, hw, ha, he⟩)
      · rw [hx] at he
        cases he
        exact .inr (.inl ⟨_, .unknownRegister index _, h12, rfl⟩)
      · rw [hx] at he
        cases he
        exact .inr (.inl ⟨_, f, State.accessFault_plausible _ hf, rfl⟩)

/-- No step changes MEMSIZE (R31) or a launch parameter (R38). -/
theorem step_launchKept {s t : State} (h : step s = .next t) : LaunchKept s t := by
  rcases step_outcome h with ⟨n, rfl⟩ | ⟨n, f, _, rfl⟩ | ⟨i, rest, _, hw, ha, he⟩
  · exact ⟨rfl, rfl⟩
  · exact ⟨rfl, rfl⟩
  · exact (exec_complete_keeps hw ha he).1.1

/-- Settles O48: a step that completes keeps memory canonical and the latch as it was; every other step keeps memory, and
latches only a plausible fault. -/
theorem stepKeepsInv : Obligations.StepKeepsInv := by
  intro s t hinv h
  rcases step_outcome h with ⟨n, rfl⟩ | ⟨n, f, hf, rfl⟩ | ⟨i, rest, _, hw, ha, he⟩
  · exact ⟨hinv.memWf, hinv.memBelow, hinv.faultPlausible⟩
  · refine ⟨hinv.memWf, hinv.memBelow, fun g hg => ?_⟩
    cases hg
    exact hf
  · obtain ⟨⟨⟨_, hconfig⟩, hfault⟩, hmem⟩ := exec_complete_keeps hw ha he
    obtain ⟨hwf, hbelow⟩ := hmem hinv.memWf hinv.memBelow
    refine ⟨hwf, hbelow, ?_⟩
    rw [hfault, hconfig]
    exact hinv.faultPlausible

/-- Settles O47: after RESET nothing is listed and nothing is latched. -/
theorem resetMeetsInv : Obligations.ResetMeetsInv := by
  have hlaunch : ∀ (cfg : Config) (size : Word), (State.launch cfg size).Inv := fun cfg size =>
    ⟨rfl, rfl, fun f hf => by cases hf⟩
  exact ⟨hlaunch, hlaunch _ _⟩

/-- An instruction that completes changes `ip` and the registers it writes only (R23, R25). -/
theorem exec_complete_regsKept {s t : State} {i : Instr} (hw : i.wellFormed = true) (ha : s.AccessInBounds i)
    (h : exec i s = .next t) : RegsKept s t (.ip :: writtenRegs i) := by
  have hip : ∀ n l, RegsKept s (s.advance n) (.ip :: l) := fun n l =>
    (s.advance_onlyChanges n).1.mono (by simp)
  cases i <;> simp [Instr.wellFormed, Instr.regOperands, State.AccessInBounds] at hw ha
  case movLitReg lit dst =>
    obtain ⟨d, hd⟩ := Reg.ofIndex_of_namesRegister hw
    rw [exec_movLitReg hd] at h
    cases h
    exact (hip _ _).writeReg (by simp [writtenRegs, hd])
  case movRegReg src dst =>
    obtain ⟨r, hr⟩ := Reg.ofIndex_of_namesRegister hw.1
    obtain ⟨d, hd⟩ := Reg.ofIndex_of_namesRegister hw.2
    rw [exec_movRegReg hr hd] at h
    cases h
    exact (hip _ _).writeReg (by simp [writtenRegs, hd])
  case movRegMem src addr =>
    obtain ⟨r, hr⟩ := Reg.ofIndex_of_namesRegister hw
    rw [exec_movRegMem hr ha] at h
    cases h
    exact hip 4 _
  case movMemReg addr dst =>
    obtain ⟨d, hd⟩ := Reg.ofIndex_of_namesRegister hw
    rw [exec_movMemReg hd ha] at h
    cases h
    exact (hip _ _).writeReg (by simp [writtenRegs, hd])
  case addRegReg p q =>
    obtain ⟨a, hp⟩ := Reg.ofIndex_of_namesRegister hw.1
    obtain ⟨b, hq⟩ := Reg.ofIndex_of_namesRegister hw.2
    rw [exec_addRegReg hp hq] at h
    cases h
    exact (hip _ _).writeReg (by simp [writtenRegs])
  case jmpNotEq lit addr =>
    rw [exec_jmpNotEq] at h
    cases h
    split
    · exact hip _ _
    · exact (hip _ _).writeReg (by simp)
  case pshLit lit =>
    rw [exec_pshLit ha.1 ha.2] at h
    cases h
    exact RegsKept.writeReg (hip 3 _) (by simp [writtenRegs])
  case pshReg src =>
    obtain ⟨r, hr⟩ := Reg.ofIndex_of_namesRegister hw
    rw [exec_pshReg hr ha.1 ha.2] at h
    cases h
    exact RegsKept.writeReg (hip 2 _) (by simp [writtenRegs])
  case pop dst =>
    obtain ⟨d, hd⟩ := Reg.ofIndex_of_namesRegister hw
    rw [exec_pop hd ha] at h
    cases h
    exact ((hip _ _).writeReg (by simp [writtenRegs])).writeReg (by simp [writtenRegs, hd])

/-- Settles O39: only a step that completes an instruction changes a register other than `ip`. -/
theorem onlyWritersWriteRegisters : Obligations.OnlyWritersWriteRegisters := by
  intro s t r h hchanged hip
  rcases step_outcome h with ⟨n, rfl⟩ | ⟨n, f, _, rfl⟩ | ⟨i, rest, hdecode, hw, ha, he⟩
  · simp [hip] at hchanged
  · simp [hip] at hchanged
  · refine ⟨i, rest, hdecode, ?_⟩
    by_contra hr
    exact hchanged (exec_complete_regsKept hw ha he r (by simp [hip, hr]))

end Sys2Proof.Machine

/-! What the host's commands do to MEMSIZE and the launch parameters (R31, R38, R190). -/

namespace Sys2Proof.Machine

/-- STEP leaves the state its step answers (R193). -/
theorem State.stepCommand_of_step {s t : State} (h : step s = .next t) : s.stepCommand = (t, t.report) := by
  simp [State.stepCommand, h]

/-- Every command but RESET and LOAD keeps MEMSIZE and the launch parameters (R31, R38). -/
theorem State.command_launchKept {s : State} {c : Command} (hreset : ∀ n, c ≠ .reset n) (hload : ∀ p, c ≠ .load p) :
    LaunchKept s (s.command c).1 := by
  cases c with
  | reset n => exact absurd rfl (hreset n)
  | load p => exact absurd rfl (hload p)
  | step =>
    obtain ⟨t, ht⟩ := stepAnswersNext s
    rw [State.command, State.stepCommand_of_step ht]
    exact step_launchKept ht
  | nextEquals value => exact ⟨rfl, rfl⟩
  | regGet reg =>
    simp only [State.command]
    split <;> exact ⟨rfl, rfl⟩
  | regSet reg value =>
    simp only [State.command]
    split <;> exact ⟨rfl, rfl⟩
  | memRead addr n =>
    simp only [State.command]
    split <;> exact ⟨rfl, rfl⟩

/-- RESET, accepted or refused, keeps the launch parameters (log entry 8). -/
theorem State.resetCommand_config (s : State) (n : Nat) : (s.resetCommand n).1.config = s.config := by
  unfold State.resetCommand
  split <;> rfl

/-- LOAD, accepted or refused, keeps the launch parameters (R192, log entry 8). -/
theorem State.loadCommand_config (s : State) (p : List Byte) : (s.loadCommand p).1.config = s.config := by
  simp only [State.loadCommand]
  split <;> rfl

/-- An accepted RESET sets MEMSIZE to its size (R191). -/
theorem State.resetCommand_size (s : State) {n : Nat} (h : n ≤ 65535) : (s.resetCommand n).1.size = n := by
  simp [State.resetCommand, State.size, h, Nat.mod_eq_of_lt (Nat.lt_succ_of_le h)]

/-- An accepted LOAD sets MEMSIZE to the length of its program (R192). -/
theorem State.loadCommand_size (s : State) {p : List Byte} (h2 : 2 ≤ p.length) (h : p.length ≤ 65535) :
    (s.loadCommand p).1.size = p.length := by
  simp [State.loadCommand, State.size, h2, h, Nat.mod_eq_of_lt (Nat.lt_succ_of_le h)]

/-- Settles O50: MEMSIZE is a 16-bit value, so address 0xFFFF is never below it. -/
theorem memSizeIsSetByResetAndLoadOnly : Obligations.MemSizeIsSetByResetAndLoadOnly := by
  refine ⟨fun s n => s.resetCommand_size, fun s p => s.loadCommand_size,
    fun s c hreset hload => (State.command_launchKept hreset hload).1, fun s t h => (step_launchKept h).1,
    fun s b v kind insn => ?_⟩
  have hsize : s.memSize.toNat ≤ 0xFFFF := Nat.le_of_lt_succ s.memSize.isLt
  exact ⟨State.memRead1_error.mpr ⟨hsize, rfl⟩, State.memRead2_error.mpr ⟨by omega, rfl⟩,
    State.memWrite1_error.mpr ⟨hsize, rfl⟩, State.memWrite2_error.mpr ⟨by omega, rfl⟩⟩

/-- Settles O51: RESET and LOAD keep the launch parameters, and so does every other command. -/
theorem launchParametersNeverChange : Obligations.LaunchParametersNeverChange := by
  refine ⟨fun s t h => (step_launchKept h).2, fun s c => ?_⟩
  cases c with
  | reset n => exact s.resetCommand_config n
  | load p => exact s.loadCommand_config p
  | _ => exact (State.command_launchKept (by simp) (by simp)).2

end Sys2Proof.Machine

/-! Memory (20_memory.md): what a write leaves, what a read sees after it, and how the next fetch sees a store (R52 to
R58, R62). -/

namespace Sys2Proof.Machine

/-- Replacing memory by one that reads alike outside the listed addresses changes nothing else. -/
theorem State.withMem_onlyChanges {s : State} {m : Memory} {l : List Nat}
    (h : ∀ x, x ∉ l → m.read x = s.mem.read x) : OnlyChanges s { s with mem := m } [] l :=
  ⟨fun _ _ => rfl, h, ⟨rfl, rfl⟩, rfl⟩

/-- What a one-byte write that completes leaves (R53). -/
theorem State.memWrite1_leaves {s t : State} {a : Nat} {b : Byte} {kind : AccessKind} {insn : Word}
    (hw : s.mem.wf = true) (h : s.memWrite1 a b kind insn = .ok t) :
    t.mem.read a = b ∧ OnlyChanges s t [] [a] ∧ t.mem.wf = true := by
  obtain ⟨_, rfl⟩ := State.memWrite1_ok.mp h
  refine ⟨by simp [Memory.read_write hw], State.withMem_onlyChanges fun x hx => ?_, Memory.wf_write _ _ hw⟩
  have hne : x ≠ a := by simpa using hx
  simp [Memory.read_write hw, hne]

/-- What a two-byte write that completes leaves: the high byte at the lower address (R57). -/
theorem State.memWrite2_leaves {s t : State} {a : Nat} {v : Word} {kind : AccessKind} {insn : Word}
    (hw : s.mem.wf = true) (h : s.memWrite2 a v kind insn = .ok t) :
    t.mem.read a = hiByte v ∧ t.mem.read (a + 1) = loByte v ∧ OnlyChanges s t [] [a, a + 1] ∧ t.mem.wf = true := by
  obtain ⟨_, rfl⟩ := State.memWrite2_ok.mp h
  refine ⟨by simp [Memory.read_write2 hw], by simp [Memory.read_write2 hw], State.withMem_onlyChanges fun x hx => ?_,
    Memory.wf_write _ _ (Memory.wf_write _ _ hw)⟩
  have hne : x ≠ a ∧ x ≠ a + 1 := by simpa using hx
  simp [Memory.read_write2 hw, hne]

/-- Settles O9: a two-byte read joins the bytes at `a` and `a + 1`, the lower address giving bits 15:8. -/
theorem memoryReadRule : Obligations.MemoryReadRule := by
  intro s a kind insn
  exact ⟨fun h => State.memRead1_error.mpr ⟨h, rfl⟩, fun h => State.memRead1_ok.mpr ⟨h, rfl⟩,
    fun h => State.memRead2_error.mpr ⟨h, rfl⟩,
    fun h => ⟨_, State.memRead2_ok.mpr ⟨h, rfl⟩, joinBytes_toNat _ _⟩⟩

/-- Settles O10: inside memory a write completes and leaves what `memWrite1_leaves` and `memWrite2_leaves` say. -/
theorem memoryWriteRule : Obligations.MemoryWriteRule := by
  refine fun s a b v kind insn hw => ⟨fun h => State.memWrite1_error.mpr ⟨h, rfl⟩, fun h => ?_,
    fun h => State.memWrite2_error.mpr ⟨h, rfl⟩, fun h => ?_⟩
  · obtain ⟨t, hok⟩ : ∃ t, s.memWrite1 a b kind insn = .ok t := ⟨_, State.memWrite1_ok.mpr ⟨h, rfl⟩⟩
    exact ⟨t, hok, State.memWrite1_leaves hw hok⟩
  · obtain ⟨t, hok⟩ : ∃ t, s.memWrite2 a v kind insn = .ok t := ⟨_, State.memWrite2_ok.mpr ⟨h, rfl⟩⟩
    exact ⟨t, hok, State.memWrite2_leaves hw hok⟩

/-- Settles O11: the write leaves its two bytes at `a` and `a + 1`, keeps the byte at `a + 2`, and keeps MEMSIZE. -/
theorem mixedWidthView : Obligations.MixedWidthView := by
  intro s t a v kind kind' insn hw h
  have hin : a + 1 < s.memSize.toNat := (State.memWrite2_ok.mp h).1
  obtain ⟨hhi, hlo, ⟨_, hkept, ⟨hsize, _⟩, _⟩, _⟩ := State.memWrite2_leaves hw h
  have hnext : t.mem.read (a + 2) = s.mem.read (a + 2) := hkept _ (by simp)
  refine ⟨State.memRead2_ok.mpr ⟨by rwa [hsize], ?_⟩, fun h2 => State.memRead2_ok.mpr ⟨by rwa [hsize], ?_⟩⟩
  · rw [hhi, hlo, joinBytes_hiByte_loByte]
  · rw [hlo, hnext]

/-- The next step fetches the bytes a push stored wherever it reaches them (R62). -/
theorem State.pushed_fetchesStored {s : State} (hw : s.mem.wf = true) (len : Nat) (v : Word)
    (hb : s.sp + 1 < s.size) : (s.pushed len v).FetchesStored s.sp v :=
  State.fetchesStored_of (by simp [State.read_pushed hw]) (by simp [State.read_pushed hw]) hb

/-- Settles O42: each storing instruction completes with its two bytes in memory, where the next fetch reads them. -/
theorem storeIsSeenByTheNextFetch : Obligations.StoreIsSeenByTheNextFetch := by
  refine fun s hw => ⟨fun src addr r hr ha => ?_, fun lit h2 hb => ?_, fun src r hr h2 hb => ?_⟩
  · exact ⟨_, exec_movRegMem hr ha, State.readReg_advance s 4 .ip,
      State.fetchesStored_of (by simp [Memory.read_write2 hw]) (by simp [Memory.read_write2 hw]) ha⟩
  · exact ⟨_, exec_pshLit h2 hb, by simp, State.pushed_fetchesStored hw 3 lit hb⟩
  · exact ⟨_, exec_pshReg hr h2 hb, by simp, State.pushed_fetchesStored hw 2 _ hb⟩

end Sys2Proof.Machine

/-! The encoding (30_encoding.md): the decoder takes exactly the bytes the encoder writes, and the opcode byte alone
fixes how many (R84, R91, R96). -/

namespace Sys2Proof

/-! ### Operands off a list of bytes (R81, R87) -/

@[simp] theorem listByte_cons (b : Byte) (rest : List Byte) : listByte (b :: rest) = .ok (b, rest) := rfl

@[simp] theorem listWord_wordBytes_append (v : Word) (rest : List Byte) :
    listWord (wordBytes v ++ rest) = .ok (v, rest) := by
  simp [wordBytes, listWord]

theorem listByte_ok {bs rest : List Byte} {b : Byte} : listByte bs = .ok (b, rest) ↔ bs = b :: rest := by
  cases bs <;> simp [listByte]

/-- A word taken off a list leaves what follows its two bytes, high byte first (R87). -/
theorem listWord_ok {bs rest : List Byte} {v : Word} : listWord bs = .ok (v, rest) ↔ bs = wordBytes v ++ rest := by
  constructor
  · intro h
    match bs, h with
    | hi :: lo :: _, h =>
      cases h
      simp [wordBytes]
  · rintro rfl
    exact listWord_wordBytes_append v rest

/-- Taking a byte fails only by running out of bytes (R96). -/
theorem listByte_error {bs : List Byte} {e : DecodeError} :
    listByte bs = .error e ↔ e = .truncated ∧ bs.length < 1 := by
  cases bs <;> simp [listByte, eq_comm]

/-- Taking a word fails only by running out of bytes: fewer than two are left (R96). -/
theorem listWord_error {bs : List Byte} {e : DecodeError} :
    listWord bs = .error e ↔ e = .truncated ∧ bs.length < 2 := by
  match bs with
  | [] => simp [listWord, eq_comm]
  | [_] => simp [listWord, eq_comm]
  | _ :: _ :: _ => simp [listWord]

/-! ### All operands of an instruction (R82, R96) -/

@[simp] theorem length_wordBytes (v : Word) : (wordBytes v).length = 2 := rfl

theorem length_encodeOperands (i : Instr) : (encodeOperands i).length + 1 = i.mnemonic.length := by
  cases i <;> rfl

/-- The operands of an instruction are taken from their encoding, and the bytes after it are left (R96). -/
theorem takeOperands_encodeOperands (i : Instr) (rest : List Byte) :
    takeOperands listSource i.mnemonic (encodeOperands i ++ rest) = .ok (i, rest) := by
  cases i <;> simp [Instr.mnemonic, encodeOperands, takeOperands, listSource, bind, Except.bind, pure, Except.pure]

/-- Operands are taken only from the encoding of an instruction of the mnemonic selected (R91, R96). -/
theorem of_takeOperands_ok {m : Mnemonic} {bs rest : List Byte} {i : Instr}
    (h : takeOperands listSource m bs = .ok (i, rest)) : i.mnemonic = m ∧ bs = encodeOperands i ++ rest := by
  cases m <;>
    simp only [takeOperands, listSource, Machine.Except.bind_ok_iff, Prod.exists, listByte_ok, listWord_ok, pure,
      Except.pure, Except.ok.injEq, Prod.mk.injEq] at h
  case movLitReg | movRegReg | movRegMem | movMemReg | addRegReg | jmpNotEq =>
    obtain ⟨x, _, rfl, y, _, rfl, rfl, rfl⟩ := h
    exact ⟨rfl, rfl⟩
  case pshLit | pshReg | pop =>
    obtain ⟨x, _, rfl, rfl, rfl⟩ := h
    exact ⟨rfl, rfl⟩

/-- Taking the operands fails only by running out of bytes inside the instruction (R93, R96). -/
theorem of_takeOperands_error {m : Mnemonic} {bs : List Byte} {e : DecodeError}
    (h : takeOperands listSource m bs = .error e) : e = .truncated ∧ bs.length + 1 < m.length := by
  cases m <;>
    simp only [takeOperands, listSource, Machine.Except.bind_error_iff, Prod.exists, listByte_ok, listWord_ok,
      listByte_error, listWord_error, pure, Except.pure, reduceCtorEq, and_false, exists_false, or_false,
      Machine.Mnemonic.length_eq] at h ⊢
  case movLitReg | movRegReg | movRegMem | movMemReg | addRegReg | jmpNotEq =>
    obtain ⟨he, hlen⟩ | ⟨x, tail, rfl, he, hlen⟩ := h
    · exact ⟨he, by omega⟩
    · refine ⟨he, ?_⟩
      simp only [List.length_append, List.length_cons, length_wordBytes]
      omega
  case pshLit | pshReg | pop => exact ⟨h.1, by omega⟩

/-- Where the bytes hold the whole instruction, its operands are taken and nothing else (R84). -/
theorem takeOperands_of_length_le {m : Mnemonic} {bs : List Byte} (h : m.length ≤ bs.length + 1) :
    ∃ i, takeOperands listSource m bs = .ok (i, bs.drop (m.length - 1)) ∧ i.mnemonic = m := by
  cases hops : takeOperands listSource m bs with
  | error e => exact absurd (of_takeOperands_error hops).2 (by omega)
  | ok r =>
    obtain ⟨i, rest⟩ := r
    obtain ⟨rfl, rfl⟩ := of_takeOperands_ok hops
    refine ⟨i, ?_, rfl⟩
    rw [← length_encodeOperands, Nat.add_sub_cancel, List.drop_left]

/-- Where the bytes end inside the instruction, its operands cannot be taken (R93). -/
theorem takeOperands_of_length_lt {m : Mnemonic} {bs : List Byte} (h : bs.length + 1 < m.length) :
    takeOperands listSource m bs = .error .truncated := by
  cases hops : takeOperands listSource m bs with
  | error e => rw [(of_takeOperands_error hops).1]
  | ok r =>
    obtain ⟨rfl, rfl⟩ := of_takeOperands_ok hops
    rw [← length_encodeOperands, List.length_append] at h
    omega

/-! ### The decoder (R84, R89) -/

theorem decode_of_select {o : Opcodes} {b : Byte} {m : Mnemonic} (hm : o.select b = some m) (tail : List Byte) :
    decode o (b :: tail) = takeOperands listSource m tail := by
  simp [decode, hm]

theorem decode_undefined {o : Opcodes} {b : Byte} (hb : o.select b = none) (tail : List Byte) :
    decode o (b :: tail) = .error (.illegalOpcode b) := by
  simp [decode, hb]

/-- A list that decodes begins with an opcode, and the instruction it selects takes its operands from the rest. -/
theorem of_decode_ok {o : Opcodes} {bs rest : List Byte} {i : Instr} (h : decode o bs = .ok (i, rest)) :
    ∃ b m tail, bs = b :: tail ∧ o.select b = some m ∧ takeOperands listSource m tail = .ok (i, rest) := by
  cases bs with
  | nil => cases h
  | cons b tail =>
    cases hm : o.select b with
    | none =>
      rw [decode_undefined hm] at h
      cases h
    | some m => exact ⟨b, m, tail, rfl, hm, (decode_of_select hm tail).symm.trans h⟩

/-- Under distinct opcodes a byte selects an instruction exactly if it is that instruction's opcode (R85). -/
theorem Opcodes.select_eq_some {o : Opcodes} (ho : o.Distinct) {b : Byte} {m : Mnemonic} :
    o.select b = some m ↔ b = o.value m :=
  ⟨fun h => (Opcodes.value_of_select h).symm, fun h => h ▸ Opcodes.select_value ho m⟩

/-- Settles O1: the encoding's first byte selects the instruction, and its operands are taken from the others. -/
theorem decodeEncodeRoundTrip : Obligations.DecodeEncodeRoundTrip := by
  intro o ho i rest
  calc decode o (encode o i ++ rest)
      = takeOperands listSource i.mnemonic (encodeOperands i ++ rest) :=
        decode_of_select (Opcodes.select_value ho i.mnemonic) _
    _ = .ok (i, rest) := takeOperands_encodeOperands i rest

/-- Settles O2: the first byte is the opcode of the instruction it selects, and the operands are its encoding's. -/
theorem decodedBytesAreTheEncoding : Obligations.DecodedBytesAreTheEncoding := by
  intro o bs i rest h
  obtain ⟨b, m, tail, rfl, hm, hops⟩ := of_decode_ok h
  obtain ⟨rfl, rfl⟩ := of_takeOperands_ok hops
  rw [encode, Opcodes.value_of_select hm, List.cons_append]

/-- Settles O3: the operand bytes are enough or too few by the length of the instruction the opcode selects. -/
theorem opcodeFixesTheLength : Obligations.OpcodeFixesTheLength := by
  refine fun o b tail => ⟨fun hb => decode_undefined hb tail, fun m hm hlen => ?_, fun m hm hlen => ?_⟩
  · rw [decode_of_select hm]
    exact takeOperands_of_length_le hlen
  · rw [decode_of_select hm]
    exact takeOperands_of_length_lt hlen

/-- Settles O4: the decoder run on each of the words. -/
theorem specWordsDecode : Obligations.SpecWordsDecode :=
  ⟨rfl, rfl, rfl, rfl, rfl, rfl, rfl, rfl, rfl, rfl, rfl⟩

/-- Settles O5: the rows are evaluated, and the spec's opcodes are distinct. -/
theorem opcodeTable : Obligations.OpcodeTable :=
  ⟨by decide, fun _ _ => Opcodes.select_eq_some Opcodes.standard_distinct⟩

end Sys2Proof

/-! The fetch primitives (R110, R111): both cases of each, with the exact advance of `ip`. -/

namespace Sys2Proof.Machine

/-- Raising a fault leaves `ip` where it is and changes nothing but the latch (R213). -/
theorem State.raise_faultedTo (s : State) (f : Fault) : s.FaultedTo (s.raise f) s.pc f :=
  ⟨rfl, rfl, fun _ _ => rfl, fun _ _ => rfl, rfl, rfl⟩

/-- Settles O12: inside memory the advance by one is exact, and outside it the fault is raised where `ip` stands. -/
theorem fetchByteRule : Obligations.FetchByteRule := by
  refine fun s insn => ⟨fun h => ?_, fun h => ?_⟩
  · exact ⟨_, State.fetch_error.mpr ⟨h, rfl⟩, s.raise_faultedTo _⟩
  · exact ⟨_, State.fetch_ok.mpr ⟨h, rfl, rfl⟩, State.advance_pc h, s.advance_onlyChanges 1⟩

/-- Settles O13: the two single fetches advance by one each, which is the advance by two. -/
theorem fetchWordRule : Obligations.FetchWordRule := by
  refine fun s insn => ⟨fun h => ?_, fun h => ?_⟩
  · exact ⟨_, State.fetch16_error.mpr ⟨h, rfl⟩, s.raise_faultedTo _⟩
  · have hhi : s.fetch insn = .ok (s.codeByte 0, s.advance 1) := State.fetch_ok.mpr ⟨Nat.lt_of_succ_lt h, rfl, rfl⟩
    have hlo : (s.advance 1).fetch insn = .ok (s.codeByte 1, s.advance 2) := State.fetch_advance h
    exact ⟨_, State.fetch16_ok.mpr ⟨h, rfl, rfl⟩, State.advance_pc h, s.advance_onlyChanges 2,
      _, _, _, hhi, hlo, rfl⟩

end Sys2Proof.Machine

/-! One step (R112, R113, R118): what it runs, what it does where it finds no instruction, and the state at a fault. -/

namespace Sys2Proof.Machine

/-- Settles O14: bytes that decode are a whole instruction inside memory, and the fetch phase fetches it. -/
theorem stepRunsTheDecodedInstruction : Obligations.StepRunsTheDecodedInstruction := by
  intro s i rest hf hdecode
  obtain ⟨m, hm, hl, rfl⟩ := State.of_decode_code hdecode
  rw [step_unlatched hf, stepUnlatched_execute (State.fetchInstr_execute hm hl)]

/-- The step on an undefined opcode (R113). -/
theorem step_undefined {s : State} (hf : s.fault = none) (h : s.pc < s.size)
    (hm : s.config.opc.select (s.codeByte 0) = none) :
    step s = .next ((s.advance 1).undefinedOpcode (s.codeByte 0) (s.readReg .ip)) :=
  (step_unlatched hf).trans (stepUnlatched_ended (State.fetchInstr_undefined h hm))

/-- Settles O16: the opcode fetch fails, or it has advanced `ip` by one when the opcode proves undefined. -/
theorem noInstructionRule : Obligations.NoInstructionRule := by
  refine fun s hf => ⟨step_outside hf, fun h hm => ?_⟩
  have hstep := step_undefined hf h hm
  rcases State.undefinedOpcode_cases (s.advance 1) (s.codeByte 0) (s.readReg .ip) with ⟨hmode, he⟩ | ⟨hmode, he⟩ <;>
    rw [State.advance_config] at hmode <;> rw [he] at hstep
  · exact ⟨by simp [hmode], fun _ => ⟨_, hstep, State.advance_pc h, s.advance_onlyChanges 1⟩⟩
  · exact ⟨fun _ => ⟨_, hstep, State.raise_advance_faultedTo h⟩, by simp [hmode]⟩

/-- The fault of an access is OutOfBounds, under the kind of a data or stack access, at the instruction's address
(R211). -/
theorem State.accessFault_eq {s : State} {i : Instr} {f : Fault} (h : s.accessFault i = some f) :
    ∃ addr kind, kind ≠ .fetch ∧ f = .outOfBounds addr kind (s.readReg .ip) := by
  cases i <;> cases h <;> exact ⟨_, _, by decide, rfl⟩

/-- Settles O18: each way a step can fault raises its fault after an advance of `ip`, by what the fetches made. -/
theorem faultIsPrecise : Obligations.FaultIsPrecise := by
  intro s t f hf hstep ht
  rcases step_forms hf hstep with ⟨_, rfl⟩ | ⟨_, _, _, rfl⟩ | ⟨h, _, _, rfl⟩ | ⟨m, h, _, hl, rfl⟩ | ⟨m, hm, hl, he⟩
  · cases ht
    obtain ⟨hpc, _, hregs, hmem, hlaunch⟩ := s.raise_faultedTo (.outOfBounds s.pc .fetch (s.readReg .ip))
    exact ⟨hregs, hmem, hlaunch, rfl, hpc, Nat.le_refl _, Nat.le_add_right _ _⟩
  · rw [State.advance_fault, hf] at ht
    cases ht
  · cases ht
    obtain ⟨hregs, hmem, hlaunch⟩ := State.raise_advance_kept
    exact ⟨hregs, hmem, hlaunch, rfl, State.advance_pc h⟩
  · cases ht
    obtain ⟨hin, _, h3, _⟩ := missingOffset_bounds h hl
    obtain ⟨hregs, hmem, hlaunch⟩ := State.raise_advance_kept
    exact ⟨hregs, hmem, hlaunch, rfl, State.advance_pc hin, by omega, by omega⟩
  · obtain ⟨rfl, hcause⟩ := exec_latches hf he ht
    rw [State.instrAt_length]
    obtain ⟨hpc, _, hregs, hmem, hlaunch⟩ := State.raise_advance_faultedTo (f := f) hl
    refine ⟨hregs, hmem, hlaunch, ?_⟩
    rcases hcause with ⟨index, _, _, rfl⟩ | ⟨_, _, hfault⟩
    · exact ⟨rfl, m, hm, hpc⟩
    · obtain ⟨addr, kind, hkind, rfl⟩ := State.accessFault_eq hfault
      cases kind with
      | fetch => exact absurd rfl hkind
      | _ => exact ⟨rfl, m, hm, hpc⟩

end Sys2Proof.Machine

/-! Where an executing instruction traps (R114 phases 2 and 3, R211, R212). -/

namespace Sys2Proof.Machine

/-- An instruction whose register operands are good and whose access is not inside memory raises that access's fault. -/
theorem exec_accessFault {s : State} {i : Instr} {f : Fault} (hw : i.wellFormed = true) (ha : ¬ s.AccessInBounds i)
    (hf : s.accessFault i = some f) : exec i s = .next ((s.advance i.length).raise f) := by
  rcases exec_cases s i with ⟨_, ha'⟩ | ⟨index, h12, hmem, _⟩ | ⟨_, _, g, hg, he⟩
  · exact absurd ha' ha
  · have hgood : index.toNat ≤ 11 := by simpa [namesRegister] using List.all_eq_true.mp hw index hmem
    omega
  · rw [hf] at hg
    cases hg
    exact he

/-- Settles O36: each clause is the fault of that instruction's access. -/
theorem badAccessIsReported : Obligations.BadAccessIsReported := by
  intro s idx addr lit hidx
  have hgood : namesRegister idx = true := by simpa [namesRegister] using hidx
  have hw : [idx].all namesRegister = true := by simp [hgood]
  refine ⟨fun h => ?_, fun h => ?_, fun h => ?_⟩
  · have ha : ¬ addr.toNat + 1 < s.size := by omega
    exact ⟨exec_accessFault (i := .movRegMem idx addr) hw ha rfl, exec_accessFault (i := .movMemReg addr idx) hw ha rfl⟩
  · have ha : ¬ (2 ≤ s.sp ∧ s.sp + 1 < s.size) := by omega
    exact ⟨exec_accessFault (i := .pshLit lit) rfl ha rfl, exec_accessFault (i := .pshReg idx) hw ha rfl⟩
  · have ha : ¬ s.sp + 3 < s.size := by omega
    exact exec_accessFault (i := .pop idx) hw ha rfl

/-- An instruction whose first register operand names no register raises UnknownRegister for it (R114 phase 2). -/
theorem exec_firstOperand_bad {s : State} {i : Instr} {p : Byte} {others : List Byte} (hi : i.regOperands = p :: others)
    (hp : 12 ≤ p.toNat) : exec i s = .next ((s.advance i.length).raise (.unknownRegister p (s.readReg .ip))) := by
  have herr := (operandReg_error (insn := s.readReg .ip)).mpr ⟨hp, rfl⟩
  cases i <;> cases hi <;>
    simp only [exec, execMovLitReg, execMovRegReg, execMovRegMem, execMovMemReg, execAddRegReg, execPshReg, execPop,
      herr, bind, Except.bind, State.conclude_error] <;> rfl

/-- An instruction whose first register operand is good and whose second is not raises UnknownRegister for the second
(R114 phase 2). -/
theorem exec_secondOperand_bad {s : State} {i : Instr} {p q : Byte} (hi : i.regOperands = [p, q])
    (hp : namesRegister p = true) (hq : 12 ≤ q.toNat) :
    exec i s = .next ((s.advance i.length).raise (.unknownRegister q (s.readReg .ip))) := by
  obtain ⟨r, hr⟩ := Reg.ofIndex_of_namesRegister hp
  have hok := operandReg_of (insn := s.readReg .ip) hr
  have herr := (operandReg_error (insn := s.readReg .ip)).mpr ⟨hq, rfl⟩
  cases i <;> cases hi <;>
    simp only [exec, execMovRegReg, execAddRegReg, hok, herr, bind, Except.bind, State.conclude_error] <;> rfl

/-- No instruction has more than two register operands (R82). -/
theorem length_regOperands_le (i : Instr) : i.regOperands.length ≤ 2 := by
  cases i <;> simp [Instr.regOperands]

/-- Settles O35: an instruction has at most two register operands, and a first one before the bad one is good. -/
theorem firstBadRegisterIsReported : Obligations.FirstBadRegisterIsReported := by
  intro s i index h
  obtain ⟨hbad, before, after, hops, hbefore⟩ := List.find?_eq_some_iff_append.mp h
  have h12 : 11 < index.toNat := by simpa [namesRegister] using hbad
  cases before with
  | nil => exact exec_firstOperand_bad hops h12
  | cons p before =>
    have hp : namesRegister p = true := by simpa using hbefore p List.mem_cons_self
    have hlen : before.length = 0 ∧ after.length = 0 := by
      have hle := length_regOperands_le i
      simp only [hops, List.length_append, List.length_cons] at hle
      omega
    obtain rfl := List.eq_nil_of_length_eq_zero hlen.1
    obtain rfl := List.eq_nil_of_length_eq_zero hlen.2
    exact exec_secondOperand_bad hops hp h12

end Sys2Proof.Machine

/-! Targets of jumps are checked by the next fetch (R161, R162). -/

namespace Sys2Proof.Machine

/-- An instruction that completes by writing an `ip` outside memory completes, and the next step faults there. -/
theorem State.completesThenFaults_of_writeIp {s u : State} {i : Instr} {target : Word}
    (he : exec i s = .next (u.writeReg .ip target)) (hf : u.fault = none) (h : u.size ≤ target.toNat) :
    s.CompletesThenFaults i target := by
  have hip : (u.writeReg .ip target).readReg .ip = target := by simp
  have hfaults := State.completesThenFaults_of he hf (by rw [State.pc, hip]; exact h)
  rwa [hip] at hfaults

/-- Settles O41: each of the five instructions completes by writing the target to `ip`. -/
theorem targetsAreCheckedByTheNextFetch : Obligations.TargetsAreCheckedByTheNextFetch := by
  intro s target hf hout
  have hdst : Reg.ofIndex 0 = some .ip := rfl
  refine ⟨fun lit hne => ?_, ?_, fun src r hr hv => ?_, fun addr ha hv => ?_, fun hsp hv => ?_⟩
  · have he := exec_jmpNotEq s lit target
    rw [if_neg hne] at he
    exact State.completesThenFaults_of_writeIp he hf hout
  · exact State.completesThenFaults_of_writeIp (exec_movLitReg hdst) hf hout
  · subst hv
    exact State.completesThenFaults_of_writeIp (exec_movRegReg hr hdst) hf hout
  · subst hv
    exact State.completesThenFaults_of_writeIp (exec_movMemReg hdst ha) hf hout
  · subst hv
    exact State.completesThenFaults_of_writeIp (exec_pop hdst hsp) hf hout

end Sys2Proof.Machine

/-! The controller and the driver (R115 to R117): NEXT_EQUALS, STEP and the run loop. -/

namespace Sys2Proof.Machine

/-- NEXT_EQUALS outside memory (R115). -/
theorem State.nextEquals_outside {s : State} {v : Byte} (h : s.size ≤ s.pc) :
    s.nextEquals v = .error (.outOfBounds (some (s.pc, .peek))) :=
  if_neg fun hin => absurd (State.inBounds_iff.mp hin) (Nat.not_lt_of_le h)

/-- NEXT_EQUALS inside memory (R115). -/
theorem State.nextEquals_inside {s : State} {v : Byte} (h : s.pc < s.size) :
    s.nextEquals v = .truth (s.mem.read s.pc == v) :=
  if_pos (State.inBounds_iff.mpr h)

/-- Settles O55: the command is the comparison beside the unchanged state. -/
theorem nextEqualsRule : Obligations.NextEqualsRule := by
  refine fun s v => ⟨fun h => ?_, fun h => ⟨s.mem.read s.pc == v, ?_, beq_iff_eq⟩⟩
  · rw [State.command, State.nextEquals_outside h]
  · rw [State.command, State.nextEquals_inside h]

/-- STEP goes to the state its step answers and reports that state's latch (R116, R193). -/
theorem State.command_step {s t : State} (h : step s = .next t) : s.command .step = (t, t.report) :=
  State.stepCommand_of_step h

/-- Settles O58: the report is `ok` or the fault according to the latch, and a latched state steps to itself. -/
theorem stepCommandReports : Obligations.StepCommandReports := by
  intro s
  obtain ⟨t, ht⟩ := stepAnswersNext s
  have hcmd := State.command_step ht
  refine ⟨t, ht, ?_, fun f hf => ?_⟩
  · cases hlatch : t.fault with
    | none => exact .inl ⟨rfl, by rw [hcmd, State.report, hlatch]⟩
    | some f => exact .inr ⟨f, rfl, by rw [hcmd, State.report, hlatch]⟩
  · rw [State.command_step (step_latched hf), State.report, hf]

/-- The loop stops in a state that is not running (R117). -/
theorem State.drive_of_not_running {s : State} (fuel : Nat) (h : s.status ≠ .running) : State.drive fuel s = s := by
  cases fuel with
  | zero => rfl
  | succ fuel =>
    cases hs : s.status with
    | running => exact absurd hs h
    | halted => simp [State.drive, hs]
    | faulted => simp [State.drive, hs]

/-- The loop goes on with the step's state (R117). -/
theorem State.drive_of_running {s t : State} (fuel : Nat) (h : s.status = .running) (ht : step s = .next t) :
    State.drive (fuel + 1) s = State.drive fuel t := by
  simp [State.drive, h, State.stepCommand_of_step ht]

/-- FAULTED: a latched fault, or an `ip` outside memory (R117). -/
theorem State.status_eq_faulted {s : State} : s.status = .faulted ↔ s.fault ≠ none ∨ s.size ≤ s.pc := by
  cases hf : s.fault with
  | some f => simp [State.status_latched hf]
  | none =>
    rw [State.status_unlatched hf]
    by_cases hin : s.pc < s.size
    · by_cases hs : s.mem.read s.pc = s.config.haltSentinel <;> simp [hin, hs, Nat.not_le_of_lt hin]
    · simp [hin, Nat.le_of_not_lt hin]

/-- HALTED: no fault latched and the sentinel at an `ip` inside memory (R117). -/
theorem State.status_eq_halted {s : State} :
    s.status = .halted ↔ s.fault = none ∧ s.pc < s.size ∧ s.mem.read s.pc = s.config.haltSentinel := by
  cases hf : s.fault with
  | some f => simp [State.status_latched hf]
  | none =>
    rw [State.status_unlatched hf]
    by_cases hin : s.pc < s.size <;> simp [hin]

/-- Settles O60: the status is tested before each step of the loop. -/
theorem runLoopRule : Obligations.RunLoopRule := fun _ =>
  ⟨State.status_eq_faulted, State.status_eq_halted, State.drive_of_not_running,
    fun fuel _ => State.drive_of_running fuel⟩

end Sys2Proof.Machine

/-! What an executed instruction leaves unchanged (R114, R118): registers, memory, MEMSIZE, launch parameters and the
latch, whether it completes or faults. -/

namespace Sys2Proof.Machine

/-- The addresses of the two bytes an instruction stores, if it stores any (R132, R172, R173). -/
def State.storedAt (s : State) : Instr → List Nat
  | .movRegMem _ addr => [addr.toNat, addr.toNat + 1]
  | .pshLit _ | .pshReg _ => [s.sp, s.sp + 1]
  | .movLitReg _ _ | .movRegReg _ _ | .movMemReg _ _ | .addRegReg _ _ | .jmpNotEq _ _ | .pop _ => []

/-- A 16-bit write keeps every byte but its two (R57). -/
theorem Memory.read_write2_of_notMem {m : Memory} {a x : Nat} {v : Word} (hw : m.wf = true) (hx : x ∉ [a, a + 1]) :
    ((m.write a (hiByte v)).write (a + 1) (loByte v)).read x = m.read x := by
  have hne : x ≠ a ∧ x ≠ a + 1 := by simpa using hx
  rw [Memory.read_write2 hw, if_neg hne.1, if_neg hne.2]

/-- An instruction that completes changes only the bytes it stores. -/
theorem exec_complete_memKept {s t : State} {i : Instr} (hm : s.storedAt i ≠ [] → s.mem.wf = true)
    (hw : i.wellFormed = true) (ha : s.AccessInBounds i) (h : exec i s = .next t) : MemKept s t (s.storedAt i) := by
  cases i <;> simp [Instr.wellFormed, Instr.regOperands, State.AccessInBounds] at hw ha
  case movLitReg lit dst =>
    obtain ⟨d, hd⟩ := Reg.ofIndex_of_namesRegister hw
    rw [exec_movLitReg hd] at h
    cases h
    exact fun _ _ => rfl
  case movRegReg src dst =>
    obtain ⟨r, hr⟩ := Reg.ofIndex_of_namesRegister hw.1
    obtain ⟨d, hd⟩ := Reg.ofIndex_of_namesRegister hw.2
    rw [exec_movRegReg hr hd] at h
    cases h
    exact fun _ _ => rfl
  case movRegMem src addr =>
    obtain ⟨r, hr⟩ := Reg.ofIndex_of_namesRegister hw
    rw [exec_movRegMem hr ha] at h
    cases h
    exact fun x hx => Memory.read_write2_of_notMem (hm (List.cons_ne_nil _ _)) hx
  case movMemReg addr dst =>
    obtain ⟨d, hd⟩ := Reg.ofIndex_of_namesRegister hw
    rw [exec_movMemReg hd ha] at h
    cases h
    exact fun _ _ => rfl
  case addRegReg p q =>
    obtain ⟨a, hp⟩ := Reg.ofIndex_of_namesRegister hw.1
    obtain ⟨b, hq⟩ := Reg.ofIndex_of_namesRegister hw.2
    rw [exec_addRegReg hp hq] at h
    cases h
    exact fun _ _ => rfl
  case jmpNotEq lit addr =>
    rw [exec_jmpNotEq] at h
    cases h
    split <;> exact fun _ _ => rfl
  case pshLit lit =>
    rw [exec_pshLit ha.1 ha.2] at h
    cases h
    exact fun x hx => Memory.read_write2_of_notMem (hm (List.cons_ne_nil _ _)) hx
  case pshReg src =>
    obtain ⟨r, hr⟩ := Reg.ofIndex_of_namesRegister hw
    rw [exec_pshReg hr ha.1 ha.2] at h
    cases h
    exact fun x hx => Memory.read_write2_of_notMem (hm (List.cons_ne_nil _ _)) hx
  case pop dst =>
    obtain ⟨d, hd⟩ := Reg.ofIndex_of_namesRegister hw
    rw [exec_pop hd ha] at h
    cases h
    exact fun _ _ => rfl

/-- An instruction completes, or it raises a fault after its operand fetches' advance of `ip` (R118). -/
theorem exec_completes_or_raises {s t : State} {i : Instr} (h : exec i s = .next t) :
    (i.wellFormed = true ∧ s.AccessInBounds i) ∨ ∃ f, t = (s.advance i.length).raise f := by
  rcases exec_cases s i with hc | ⟨_, _, _, he⟩ | ⟨_, _, _, _, he⟩
  · exact .inl hc
  · rw [he] at h
    cases h
    exact .inr ⟨_, rfl⟩
  · rw [he] at h
    cases h
    exact .inr ⟨_, rfl⟩

/-- The frame of every instruction, completing or faulting (R23, R25, R118). -/
theorem exec_frame {s t : State} {i : Instr} (hm : s.storedAt i ≠ [] → s.mem.wf = true) (h : exec i s = .next t) :
    RegsKept s t (.ip :: writtenRegs i) ∧ MemKept s t (s.storedAt i) ∧ LaunchKept s t ∧
      (t.fault = s.fault ∨ (t.fault ≠ none ∧ RegsKept s t [.ip] ∧ MemKept s t [])) := by
  rcases exec_completes_or_raises h with ⟨hw, ha⟩ | ⟨f, rfl⟩
  · obtain ⟨hlaunch, hfault⟩ := (exec_complete_keeps hw ha h).1
    exact ⟨exec_complete_regsKept hw ha h, exec_complete_memKept hm hw ha h, hlaunch, .inl hfault⟩
  · obtain ⟨hregs, hmem, hlaunch⟩ := State.raise_advance_kept (s := s) (n := i.length) (f := f)
    exact ⟨hregs.mono (by simp), fun x _ => hmem x (by simp), hlaunch, .inr ⟨by simp, hregs, hmem⟩⟩

/-- Settles O37: the six forms store at no address. -/
theorem frameOfNonStoringInstructions : Obligations.FrameOfNonStoringInstructions := by
  intro s t i hi h
  have hstores : s.storedAt i = [] := by cases i <;> simp [Instr.mnemonic, State.storedAt] at hi ⊢
  obtain ⟨hregs, hmem, hlaunch, hfault⟩ := exec_frame (by simp [hstores]) h
  rw [hstores] at hmem
  exact ⟨hregs, hmem, hlaunch, hfault.imp id fun ⟨hf, hip, _⟩ => ⟨hf, hip⟩⟩

/-- Settles O38: the addresses of the clauses are those each form stores at. -/
theorem frameOfStoringInstructions : Obligations.FrameOfStoringInstructions := by
  refine fun s t hw => ⟨fun src addr h => ?_, fun i hi h => ?_⟩
  · obtain ⟨hregs, hmem, hlaunch, hfault⟩ := exec_frame (fun _ => hw) h
    exact ⟨hregs, hmem, hlaunch, hfault.imp id fun ⟨hf, _, hkept⟩ => ⟨hf, hkept⟩⟩
  · have hpush : writtenRegs i = [.sp] ∧ s.storedAt i = [s.sp, s.sp + 1] := by
      cases i <;> simp [Instr.mnemonic, writtenRegs, State.storedAt] at hi ⊢
    have hframe := exec_frame (fun _ => hw) h
    rwa [hpush.1, hpush.2] at hframe

end Sys2Proof.Machine

/-! The data movement instructions (41_data_movement.md): completion of each (R130 to R133), the round trip through
memory (R134), and the rule of each step with its faults in order. -/

namespace Sys2Proof.Machine

/-- What the advance of `ip` and the write of a destination register leave (R114, R25). -/
theorem State.writeReg_advance_effect (s : State) (n : Nat) (d : Reg) (v : Word) :
    ((s.advance n).writeReg d v).readReg d = v ∧
      (d ≠ .ip → ((s.advance n).writeReg d v).readReg .ip = s.readReg .ip + BitVec.ofNat 16 n) ∧
      OnlyChanges s ((s.advance n).writeReg d v) [.ip, d] [] :=
  ⟨by simp, fun hd => by simp [hd.symm], State.writeReg_advance_onlyChanges⟩

/-- Settles O31: each move writes its value to the destination after the advance of `ip`. -/
theorem registerMovesComplete : Obligations.RegisterMovesComplete := fun s _ _ _ d hd =>
  ⟨⟨_, exec_movLitReg hd, s.writeReg_advance_effect 4 d _⟩,
    fun _ hr => ⟨_, exec_movRegReg hr hd, s.writeReg_advance_effect 3 d _⟩⟩

/-- Settles O32: the store is the two-byte write after the advance of `ip`, the load a register write after it. -/
theorem memoryMovesComplete : Obligations.MemoryMovesComplete := by
  refine fun s idx addr r hr ha => ⟨fun hw => ?_, _, exec_movMemReg hr ha, s.writeReg_advance_effect 4 r _⟩
  have hstore := exec_movRegMem hr ha
  obtain ⟨hhi, hlo, ⟨_, hmem, hcontrol⟩, _⟩ := State.memWrite2_leaves (s := s.advance 4) (kind := .dataWrite)
    (insn := s.readReg .ip) (v := s.sourceValue 4 r) hw (State.memWrite2_ok.mpr ⟨ha, rfl⟩)
  exact ⟨_, hstore, hhi, hlo, State.readReg_advance s 4 .ip, (s.advance_onlyChanges 4).1, hmem, hcontrol⟩

/-- Settles O43: the load joins again the two bytes the store left at `addr`, MEMSIZE being the same. -/
theorem memoryRoundTrip : Obligations.MemoryRoundTrip := by
  intro s src dst addr r d hw hr hd ha
  obtain ⟨t, ht, hhi, hlo, _, _, _, ⟨hsize, _⟩, _⟩ := (memoryMovesComplete s src addr r hr ha).1 hw
  have ha' : addr.toNat + 1 < t.size := by rwa [State.size, hsize]
  obtain ⟨u, hu, hv, _⟩ := (memoryMovesComplete t dst addr d hd ha').2
  exact ⟨t, u, ht, hu, by rw [hv, hhi, hlo, joinBytes_hiByte_loByte]⟩

/-! ### The step at a known opcode: its faults in the order of R114 and R212 -/

/-- Inside memory an `ip` advanced by `n` is exact integer addition (R28). -/
theorem State.pc_of_ip_advanced {s t : State} {n : Nat} (hip : t.readReg .ip = s.readReg .ip + BitVec.ofNat 16 n)
    (hl : s.pc + n ≤ s.size) : t.pc = s.pc + n := by
  have hadvance := State.advance_pc hl
  rwa [State.pc, State.readReg_advance, if_pos rfl, ← hip] at hadvance

theorem firstOperandSize_lt_length (m : Mnemonic) : firstOperandSize m < m.length := by cases m <;> decide

/-- The first operand is not all inside memory (R212 item 3). -/
theorem State.Starts.step_firstOperand_missing {s : State} {m : Mnemonic} (h : s.Starts m)
    (hout : s.size ≤ s.pc + firstOperandSize m) :
    s.StepFaults (s.pc + 1) (.outOfBounds (s.pc + 1) .fetch (s.readReg .ip)) := by
  have hlen := firstOperandSize_lt_length m
  have hin := h.opcodeInMemory
  exact h.step_truncated (by omega) (if_pos (by omega))

/-- The first operand is inside memory and the instruction is not all inside it (R212 item 3). -/
theorem State.Starts.step_secondOperand_missing {s : State} {m : Mnemonic} (h : s.Starts m)
    (hin : s.pc + firstOperandSize m < s.size) (hout : s.size < s.pc + m.length) :
    s.StepFaults (s.pc + (1 + firstOperandSize m))
      (.outOfBounds (s.pc + (1 + firstOperandSize m)) .fetch (s.readReg .ip)) :=
  h.step_truncated hout (if_neg (by omega))

/-- The first register operand names no register (R114 phase 2). -/
theorem State.Starts.step_firstRegister_bad {s : State} {m : Mnemonic} {p : Byte} {others : List Byte} (h : s.Starts m)
    (hl : s.pc + m.length ≤ s.size) (hops : (s.instrAt m).regOperands = p :: others) (hp : 12 ≤ p.toNat) :
    s.StepFaults (s.pc + m.length) (.unknownRegister p (s.readReg .ip)) :=
  h.step_faults hl (s.instrAt_length m ▸ exec_firstOperand_bad hops hp)

/-- The first register operand names a register and the second does not (R114 phase 2). -/
theorem State.Starts.step_secondRegister_bad {s : State} {m : Mnemonic} {p q : Byte} (h : s.Starts m)
    (hl : s.pc + m.length ≤ s.size) (hops : (s.instrAt m).regOperands = [p, q]) (hp : p.toNat ≤ 11)
    (hq : 12 ≤ q.toNat) : s.StepFaults (s.pc + m.length) (.unknownRegister q (s.readReg .ip)) :=
  h.step_faults hl (s.instrAt_length m ▸ exec_secondOperand_bad hops (decide_eq_true hp) hq)

/-- The register operands are good and the access is not inside memory (R114 phase 3). -/
theorem State.Starts.step_access_bad {s : State} {m : Mnemonic} {f : Fault} (h : s.Starts m)
    (hl : s.pc + m.length ≤ s.size) (hops : ∀ p ∈ (s.instrAt m).regOperands, p.toNat ≤ 11)
    (ha : ¬ s.AccessInBounds (s.instrAt m)) (hf : s.accessFault (s.instrAt m) = some f) :
    s.StepFaults (s.pc + m.length) f := by
  have hw : (s.instrAt m).wellFormed = true := List.all_eq_true.mpr fun p hp => decide_eq_true (hops p hp)
  exact h.step_faults hl (s.instrAt_length m ▸ exec_accessFault hw ha hf)

/-- Settles O22: the faults are those of the fetches and of the destination, and completion is `registerMovesComplete`. -/
theorem movLitRegRule : Obligations.MovLitRegRule := by
  refine fun s h => ⟨h.step_firstOperand_missing, fun hin hout => ?_, fun hl => ?_, fun hl d hd => ?_⟩
  · exact h.step_secondOperand_missing hin (Nat.lt_succ_of_le hout)
  · exact h.step_firstRegister_bad hl rfl
  · obtain ⟨t, ht, hv, hip, hframe⟩ := (registerMovesComplete s (s.codeWord 1) 0 (s.codeByte 3) d hd).1
    exact ⟨t, (h.step_eq hl).trans ht, hv, fun hne => State.pc_of_ip_advanced (hip hne) hl, hframe⟩

/-- Settles O23: the source is checked before the destination, and completion is `registerMovesComplete`. -/
theorem movRegRegRule : Obligations.MovRegRegRule := by
  refine fun s h => ⟨h.step_firstOperand_missing, fun hin hout => ?_, fun hl => ?_, fun hl => ?_,
    fun hl r d hr hd => ?_⟩
  · exact h.step_secondOperand_missing hin (Nat.lt_succ_of_le hout)
  · exact h.step_firstRegister_bad hl rfl
  · exact h.step_secondRegister_bad hl rfl
  · obtain ⟨t, ht, hv, hip, hframe⟩ := (registerMovesComplete s 0 (s.codeByte 1) (s.codeByte 2) d hd).2 r hr
    exact ⟨t, (h.step_eq hl).trans ht, hv, fun hne => State.pc_of_ip_advanced (hip hne) hl, hframe⟩

/-- Settles O24: the register is checked before the address, and completion is `memoryMovesComplete`. -/
theorem movRegMemRule : Obligations.MovRegMemRule := by
  refine fun s h hw => ⟨h.step_firstOperand_missing, fun hin hout => ?_, fun hl => ?_, fun hl hsrc hout => ?_,
    fun hl ha r hr => ?_⟩
  · exact h.step_secondOperand_missing hin (Nat.lt_succ_of_le hout)
  · exact h.step_firstRegister_bad hl rfl
  · exact h.step_access_bad hl (by simpa [State.instrAt, Instr.regOperands] using hsrc) (Nat.not_lt_of_le hout) rfl
  · obtain ⟨t, ht, hhi, hlo, hip, hframe⟩ := (memoryMovesComplete s (s.codeByte 1) (s.codeWord 2) r hr ha).1 hw
    exact ⟨t, (h.step_eq hl).trans ht, hhi, hlo, State.pc_of_ip_advanced hip hl, hframe⟩

/-- Settles O25: the register is checked before the address, and completion is `memoryMovesComplete`. -/
theorem movMemRegRule : Obligations.MovMemRegRule := by
  refine fun s h => ⟨h.step_firstOperand_missing, fun hin hout => ?_, fun hl => ?_, fun hl hdst hout => ?_,
    fun hl ha d hd => ?_⟩
  · exact h.step_secondOperand_missing hin (Nat.lt_succ_of_le hout)
  · exact h.step_firstRegister_bad hl rfl
  · exact h.step_access_bad hl (by simpa [State.instrAt, Instr.regOperands] using hdst) (Nat.not_lt_of_le hout) rfl
  · obtain ⟨t, ht, hv, hip, hframe⟩ := (memoryMovesComplete s (s.codeByte 3) (s.codeWord 1) d hd ha).2
    exact ⟨t, (h.step_eq hl).trans ht, hv, fun hne => State.pc_of_ip_advanced (hip hne) hl, hframe⟩

end Sys2Proof.Machine

/-! The arithmetic instruction (42_arithmetic.md): completion of the addition (R150), beside that of the conditional jump
(R160), and the rule of the addition's step with its faults in order. -/

namespace Sys2Proof.Machine

/-- What JMP_NOT_EQ leaves (R160): the target or the next instruction's address in `ip`, and nothing else changed. -/
theorem exec_jmpNotEq_effect (s : State) (lit addr : Word) :
    ∃ t, exec (.jmpNotEq lit addr) s = .next t ∧
      t.readReg .ip = (if lit = s.readReg .acc then s.readReg .ip + 5 else addr) ∧ OnlyChanges s t [.ip] [] := by
  have he := exec_jmpNotEq s lit addr
  by_cases h : lit = s.readReg .acc
  · rw [if_pos h] at he ⊢
    exact ⟨_, he, State.readReg_advance s 5 .ip, s.advance_onlyChanges 5⟩
  · rw [if_neg h] at he ⊢
    obtain ⟨htarget, _, hregs, hkept⟩ := s.writeReg_advance_effect 5 .ip addr
    exact ⟨_, he, htarget, hregs.mono (by simp), hkept⟩

/-- Settles O33: the addition writes the sum to `acc` after the advance of `ip`, the jump writes `ip` or leaves it
advanced. -/
theorem addAndJumpComplete : Obligations.AddAndJumpComplete := by
  refine fun s => ⟨fun p q a b hp hq => ?_, exec_jmpNotEq_effect s⟩
  obtain ⟨hsum, hip, hframe⟩ := s.writeReg_advance_effect 3 .acc (s.sourceValue 3 a + s.sourceValue 3 b)
  exact ⟨_, exec_addRegReg hp hq, hsum, hip (by decide), hframe⟩

/-- Settles O26: the first source is checked before the second, and completion is `addAndJumpComplete`, its 16-bit sum
read as an integer. -/
theorem addRegRegRule : Obligations.AddRegRegRule := by
  refine fun s h => ⟨h.step_firstOperand_missing, fun hin hout => ?_, fun hl => ?_, fun hl => ?_,
    fun hl p q hp hq => ?_⟩
  · exact h.step_secondOperand_missing hin (Nat.lt_succ_of_le hout)
  · exact h.step_firstRegister_bad hl rfl
  · exact h.step_secondRegister_bad hl rfl
  · obtain ⟨t, ht, hsum, hip, hframe⟩ := (addAndJumpComplete s).1 (s.codeByte 1) (s.codeByte 2) p q hp hq
    exact ⟨t, (h.step_eq hl).trans ht, by rw [hsum, BitVec.toNat_add], State.pc_of_ip_advanced hip hl, hframe⟩

end Sys2Proof.Machine

/-! The control transfer (43_control_flow.md): the rule of the conditional jump's step (R160), and a destination index of
0 as a jump (R162). -/

namespace Sys2Proof.Machine

/-- Settles O27: the faults are those of the fetches, and completion is `exec_jmpNotEq_effect`. -/
theorem jmpNotEqRule : Obligations.JmpNotEqRule := by
  refine fun s h => ⟨h.step_firstOperand_missing, fun hin hout => ?_, fun hl => ?_⟩
  · exact h.step_secondOperand_missing hin (Nat.lt_succ_of_le hout)
  · obtain ⟨t, ht, hip, hframe⟩ := exec_jmpNotEq_effect s (s.codeWord 1) (s.codeWord 3)
    refine ⟨t, (h.step_eq hl).trans ht, fun hne => ?_, fun heq => ?_, hframe⟩
    · rwa [if_neg hne] at hip
    · rw [if_pos heq] at hip
      exact State.pc_of_ip_advanced hip hl

/-- A write to a register that may change keeps everything else (R25). -/
theorem OnlyChanges.writeReg {s t : State} {regs : List Reg} {bytes : List Nat} {r : Reg} {v : Word}
    (h : OnlyChanges s t regs bytes) (hr : r ∈ regs) : OnlyChanges s (t.writeReg r v) regs bytes :=
  ⟨h.1.writeReg hr, h.2⟩

/-- A target written to `ip` replaces the advance of the operand fetches (R162). -/
theorem State.writeIp_advance_effect (s : State) (n : Nat) (target : Word) :
    ((s.advance n).writeReg .ip target).readReg .ip = target ∧
      OnlyChanges s ((s.advance n).writeReg .ip target) [.ip] [] :=
  ⟨by simp, (s.advance_onlyChanges n).writeReg (List.mem_singleton_self _)⟩

/-- What POP with destination `ip` leaves: the popped value in `ip`, and `sp` past the slot (R162, R174). -/
theorem exec_pop_ip_effect {s : State} {dst : Byte} (hdst : Reg.ofIndex dst = some .ip) (hb : s.sp + 3 < s.size) :
    ∃ t, exec (.pop dst) s = .next t ∧
      t.readReg .ip = joinBytes (s.mem.read (s.sp + 2)) (s.mem.read (s.sp + 3)) ∧ t.sp = s.sp + 2 ∧
      OnlyChanges s t [.ip, .sp] [] := by
  obtain ⟨hregs, hkept⟩ := s.advance_onlyChanges 2
  have hframe : OnlyChanges s (s.advance 2) [.ip, .sp] [] := ⟨hregs.mono (by simp), hkept⟩
  refine ⟨_, exec_pop hdst hb, by simp, ?_, (hframe.writeReg (by simp)).writeReg (by simp)⟩
  rw [← State.sp_add_two hb]
  simp [State.sp]

/-- The addition leaves `ip` past itself, whether it completes or its operands name no register (R162, R118). -/
theorem exec_addRegReg_ip {s t : State} {p q : Byte} (h : exec (.addRegReg p q) s = .next t) :
    t.readReg .ip = s.readReg .ip + 3 := by
  rcases exec_completes_or_raises h with ⟨hw, _⟩ | ⟨f, rfl⟩
  · have hgood : namesRegister p = true ∧ namesRegister q = true := by
      simpa [Instr.wellFormed, Instr.regOperands] using hw
    obtain ⟨a, hp⟩ := Reg.ofIndex_of_namesRegister hgood.1
    obtain ⟨b, hq⟩ := Reg.ofIndex_of_namesRegister hgood.2
    obtain ⟨u, hu, _, hip, _⟩ := (addAndJumpComplete s).1 p q a b hp hq
    rw [hu] at h
    cases h
    exact hip
  · exact State.readReg_advance s 3 .ip

/-- Settles O40: index 0 is `ip`, which each of the four forms writes after the advance. -/
theorem writingIndexZeroJumps : Obligations.WritingIndexZeroJumps := by
  intro s lit addr src p q r
  have hdst : Reg.ofIndex 0 = some .ip := rfl
  refine ⟨?_, fun hr => ?_, fun ha => ?_, fun hsp => ?_, fun t => exec_addRegReg_ip⟩
  · exact ⟨_, exec_movLitReg hdst, s.writeIp_advance_effect 4 _⟩
  · exact ⟨_, exec_movRegReg hr hdst, s.writeIp_advance_effect 3 _⟩
  · exact ⟨_, exec_movMemReg hdst ha, s.writeIp_advance_effect 4 _⟩
  · exact exec_pop_ip_effect hdst hsp

end Sys2Proof.Machine

/-! The stack instructions (44_stack.md): completion of each and the rule of its step with its faults in order (R170 to
R174), and the laws of sequences of pushes and pops (R175, R176). -/

namespace Sys2Proof.Machine

/-! ### What a push and a pop leave -/

/-- What a push of an instruction of length `len` leaves (R114, R170). -/
theorem State.pushed_effect {s : State} (hw : s.mem.wf = true) (len : Nat) (v : Word) (h2 : 2 ≤ s.sp) :
    (s.pushed len v).mem.read s.sp = hiByte v ∧ (s.pushed len v).mem.read (s.sp + 1) = loByte v ∧
      (s.pushed len v).sp = s.sp - 2 ∧ (s.pushed len v).readReg .ip = s.readReg .ip + BitVec.ofNat 16 len ∧
      OnlyChanges s (s.pushed len v) [.ip, .sp] [s.sp, s.sp + 1] := by
  refine ⟨by simp [State.read_pushed hw], by simp [State.read_pushed hw], ?_, by simp, fun r hr => ?_, fun a ha => ?_,
    ⟨rfl, rfl⟩, rfl⟩
  · rw [← State.sp_sub_two h2]
    simp [State.sp]
  · have hne : r ≠ .ip ∧ r ≠ .sp := by simpa using hr
    simp [hne]
  · have hne : a ≠ s.sp ∧ a ≠ s.sp + 1 := by simpa using ha
    simp [State.read_pushed hw, hne]

/-- What POP leaves: the destination is written after `sp`, so it holds the popped value
even where it is `sp` (R174). -/
theorem exec_pop_effect {s : State} {dst : Byte} {d : Reg} (hd : Reg.ofIndex dst = some d) (hb : s.sp + 3 < s.size) :
    ∃ t, exec (.pop dst) s = .next t ∧ t.readReg d = joinBytes (s.mem.read (s.sp + 2)) (s.mem.read (s.sp + 3)) ∧
      (d ≠ .sp → t.sp = s.sp + 2) ∧ (d ≠ .ip → t.readReg .ip = s.readReg .ip + 2) ∧
      OnlyChanges s t [.ip, .sp, d] [] := by
  obtain ⟨hregs, hkept⟩ := s.advance_onlyChanges 2
  have hframe : OnlyChanges s (s.advance 2) [.ip, .sp, d] [] := ⟨hregs.mono (by simp), hkept⟩
  refine ⟨_, exec_pop hd hb, by simp, fun hne => ?_, fun hne => ?_, (hframe.writeReg (by simp)).writeReg (by simp)⟩
  · rw [← State.sp_add_two hb]
    simp [State.sp, hne.symm]
  · simp [hne.symm]

/-! ### The instructions -/

/-- Settles O34: the pushes complete as `pushed_effect` says, the pop as `exec_pop_effect` says. -/
theorem stackInstructionsComplete : Obligations.StackInstructionsComplete := fun _ =>
  ⟨fun lit hw h2 hb => ⟨_, exec_pshLit h2 hb, State.pushed_effect hw 3 lit h2⟩,
    fun _ _ hr hw h2 hb => ⟨_, exec_pshReg hr h2 hb, State.pushed_effect hw 2 _ h2⟩,
    fun _ _ hd hb => exec_pop_effect hd hb⟩

/-- Settles O28: the faults are those of the fetch and of the slot, and completion is `stackInstructionsComplete`. -/
theorem pshLitRule : Obligations.PshLitRule := by
  refine fun s h hw => ⟨h.step_firstOperand_missing, fun hl hout => ?_, fun hl h2 hb => ?_⟩
  · have ha : ¬ (2 ≤ s.sp ∧ s.sp + 1 < s.size) := by omega
    exact h.step_access_bad hl (by simp [State.instrAt, Instr.regOperands]) ha rfl
  · obtain ⟨t, ht, hhi, hlo, hsp, hip, hframe⟩ := (stackInstructionsComplete s).1 (s.codeWord 1) hw h2 hb
    exact ⟨t, (h.step_eq hl).trans ht, hhi, hlo, hsp, State.pc_of_ip_advanced hip hl, hframe⟩

/-- Settles O29: the index is checked before the slot, and completion is `stackInstructionsComplete`. -/
theorem pshRegRule : Obligations.PshRegRule := by
  refine fun s h hw => ⟨h.step_firstOperand_missing, fun hl => ?_, fun hl hsrc hout => ?_, fun hl h2 hb r hr => ?_⟩
  · exact h.step_firstRegister_bad hl rfl
  · have ha : ¬ (2 ≤ s.sp ∧ s.sp + 1 < s.size) := by omega
    exact h.step_access_bad hl (by simpa [State.instrAt, Instr.regOperands] using hsrc) ha rfl
  · obtain ⟨t, ht, hhi, hlo, hsp, hip, hframe⟩ := (stackInstructionsComplete s).2.1 (s.codeByte 1) r hr hw h2 hb
    exact ⟨t, (h.step_eq hl).trans ht, hhi, hlo, hsp, State.pc_of_ip_advanced hip hl, hframe⟩

/-- Settles O30: the index is checked before the slot, and completion is `stackInstructionsComplete`. -/
theorem popRule : Obligations.PopRule := by
  refine fun s h => ⟨h.step_firstOperand_missing, fun hl => ?_, fun hl hdst hout => ?_, fun hl hb d hd => ?_⟩
  · exact h.step_firstRegister_bad hl rfl
  · exact h.step_access_bad hl (by simpa [State.instrAt, Instr.regOperands] using hdst) (Nat.not_lt_of_le hout) rfl
  · obtain ⟨t, ht, hv, hsp, hip, hframe⟩ := (stackInstructionsComplete s).2.2 (s.codeByte 1) d hd hb
    exact ⟨t, (h.step_eq hl).trans ht, hv, hsp, fun hne => State.pc_of_ip_advanced (hip hne) hl, hframe⟩

/-! ### Sequences of pushes and of pops -/

/-- Adding 2 to `sp` after a push gives back every register as it was before it (R170, R171). -/
theorem State.regs_of_push {s u : State} {v insn : Word} (hw : s.mem.wf = true) (h : s.push v insn = .ok u) :
    u.regs.set .sp (u.readReg .sp + 2) = s.regs := by
  obtain ⟨_, hsp, _, hslot, hregs, _⟩ := State.push_leaves hw h
  refine RegFile.ext_get fun r => ?_
  rw [RegFile.get_set]
  split
  next hr =>
    subst hr
    exact BitVec.eq_of_toNat_eq ((State.sp_add_two hslot).trans hsp)
  next hr => exact hregs r hr

/-- A pop with the registers a push left gives the value pushed and the registers from before the push, in any memory
that holds what the push left from the slot up (R170, R171). -/
theorem State.pop_of_push {s u t : State} {v insn : Word} (hw : s.mem.wf = true) (h : s.push v insn = .ok u)
    (hsize : t.size = u.size) (hmem : ∀ a, u.sp + 2 ≤ a → t.mem.read a = u.mem.read a) :
    ({ t with regs := u.regs } : State).pop insn = .ok (v, { t with regs := s.regs }) := by
  obtain ⟨_, _, _, hslot, _, _, hv⟩ := State.push_leaves hw h
  refine State.pop_ok.mpr ⟨hslot.trans_eq hsize.symm, ?_, ?_⟩
  · rw [← hv, ← hmem (u.sp + 2) (by omega), ← hmem (u.sp + 3) (by omega)]
    rfl
  · rw [← State.regs_of_push hw h]
    rfl

/-- As many pops as there were pushes give the values in reverse order and bring back the registers (R176). -/
theorem State.popMany_of_pushAll {s t : State} {insn : Word} {vs : List Word} (hw : s.mem.wf = true)
    (h : s.pushAll insn vs = .ok t) : t.popMany insn vs.length = .ok (vs.reverse, { t with regs := s.regs }) := by
  induction vs generalizing s with
  | nil =>
    cases h
    rfl
  | cons v vs ih =>
    rw [State.pushAll] at h
    split at h
    next => cases h
    next u hu =>
      obtain ⟨hwu, _⟩ := State.push_leaves hw hu
      obtain ⟨_, _, hsize, _, hmem⟩ := State.pushAll_leaves vs hwu h
      rw [List.reverse_cons]
      exact State.popMany_succ vs.length (ih hwu h) (State.pop_of_push hw hu hsize hmem)

/-- The first value a sequence of pops gives is the one its first pop gives. -/
theorem State.pop_of_popMany {s u : State} {insn v : Word} {n : Nat} {vs : List Word}
    (h : s.popMany insn (n + 1) = .ok (v :: vs, u)) : ∃ t, s.pop insn = .ok (v, t) := by
  rw [State.popMany] at h
  split at h
  next => cases h
  next w t hpop =>
    split at h
    next => cases h
    next =>
      cases h
      exact ⟨t, hpop⟩

/-- Settles O44: the pops end with the registers of the start in the memory the pushes left. -/
theorem stackLaw : Obligations.StackLaw := fun _ _ _ _ hw h =>
  ⟨_, State.popMany_of_pushAll hw h, rfl, rfl, rfl⟩

/-- Settles O45: the value pushed last is the first the pops of `popMany_of_pushAll` give, from the slot at `sp + 2`. -/
theorem stackDepth : Obligations.StackDepth := by
  intro s t insn vs hw h
  obtain ⟨_, hsp, _⟩ := State.pushAll_leaves vs hw h
  refine ⟨hsp, by omega, fun v hv => ?_⟩
  obtain ⟨us, rfl⟩ := List.getLast?_eq_some_iff.mp hv
  have hpops := State.popMany_of_pushAll hw h
  rw [List.reverse_concat, List.length_append] at hpops
  obtain ⟨_, hpop⟩ := State.pop_of_popMany hpops
  exact (State.pop_ok.mp hpop).2.1.symm

end Sys2Proof.Machine

/-! The host's commands (R190 to R198): RESET and LOAD with the states they leave, the registers by name and by index,
memory windows, and the invariant under every command. -/

namespace Sys2Proof.Machine

/-! ### RESET (R191) -/

/-- RESET of a size MEMSIZE can hold (R191). -/
theorem State.resetCommand_accepted (s : State) {n : Nat} (h : n ≤ 65535) :
    s.resetCommand n = (State.launch s.config (BitVec.ofNat 16 n), .ok) := if_pos h

/-- RESET of a size MEMSIZE cannot hold (R191). -/
theorem State.resetCommand_refused (s : State) {n : Nat} (h : 65535 < n) :
    s.resetCommand n = (s, .error (.refusedReset n)) := if_neg (Nat.not_le_of_lt h)

/-- With MEMSIZE 0 the first step after a reset finds no opcode at address 0 (R191). -/
theorem State.launch_zero_stepFaults (cfg : Config) :
    (State.launch cfg 0).StepFaults 0 (.outOfBounds 0 .fetch 0) :=
  step_outside (s := State.launch cfg 0) rfl (Nat.le_refl 0)

/-- Settles O52: an accepted RESET leaves the launch state of its size, under the launch parameters it found. -/
theorem resetCommandRule : Obligations.ResetCommandRule := by
  refine fun s n => ⟨fun h => ?_, fun h => ⟨_, s.resetCommand_refused h⟩⟩
  have hsize := s.resetCommand_size h
  rw [s.resetCommand_accepted h] at hsize
  refine ⟨_, s.resetCommand_accepted h, hsize, State.readReg_launch _ _, Memory.read_nil, rfl, fun h0 => ?_⟩
  subst h0
  exact State.launch_zero_stepFaults s.config

/-! ### LOAD (R192) -/

/-- The state an accepted LOAD leaves (R192). -/
def State.loaded (s : State) (p : List Byte) : State :=
  let top := BitVec.ofNat 16 (p.length - 2)
  let t : State := { s with memSize := BitVec.ofNat 16 p.length, mem := Memory.ofBytesAt 0 p }
  (t.writeReg .sp top).writeReg .fp top

/-- LOAD of a program of 2 to 65535 bytes (R192). -/
theorem State.loadCommand_accepted (s : State) {p : List Byte} (h2 : 2 ≤ p.length) (h : p.length ≤ 65535) :
    s.loadCommand p = (s.loaded p, .ok) := if_pos ⟨h2, h⟩

/-- LOAD of a program of any other length (R192). -/
theorem State.loadCommand_refused (s : State) {p : List Byte} (h : p.length < 2 ∨ 65535 < p.length) :
    s.loadCommand p = (s, .error (.refusedLoad p.length)) := if_neg (by omega)

/-- After LOAD MEMSIZE is the length of the program (R192). -/
theorem State.size_loaded (s : State) {p : List Byte} (h2 : 2 ≤ p.length) (h : p.length ≤ 65535) :
    (s.loaded p).size = p.length := by
  have hsize := s.loadCommand_size h2 h
  rwa [s.loadCommand_accepted h2 h] at hsize

/-- After LOAD the registers are those of before but for `sp` and `fp`, which point at the program's last two bytes
(R192). -/
theorem State.readReg_loaded (s : State) (p : List Byte) (r : Reg) :
    (s.loaded p).readReg r = if r = .sp ∨ r = .fp then BitVec.ofNat 16 (p.length - 2) else s.readReg r := by
  by_cases hfp : r = .fp <;> by_cases hsp : r = .sp <;> simp [State.loaded, hfp, hsp]

/-- After LOAD memory reads as the program and is zero above it (R192). -/
theorem State.read_loaded (s : State) (p : List Byte) (a : Nat) : (s.loaded p).mem.read a = p.getD a 0 := by
  have h := Memory.read_ofBytesAt 0 a p
  rwa [Nat.zero_add] at h

/-- Settles O53: `sp` and `fp` alone are replaced, and `n - 2` is exact in 16 bits. -/
theorem loadCommandRule : Obligations.LoadCommandRule := by
  refine fun s p => ⟨fun h2 h => ?_, fun h => ⟨_, s.loadCommand_refused h⟩⟩
  have htop : (BitVec.ofNat 16 (p.length - 2)).toNat = p.length - 2 := Nat.mod_eq_of_lt (by omega)
  refine ⟨_, s.loadCommand_accepted h2 h, s.size_loaded h2 h, s.read_loaded p, ?_, ?_, fun r hr => ?_, rfl⟩
  · rw [State.sp, State.readReg_loaded, if_pos (.inl rfl), htop]
  · rw [State.readReg_loaded, if_pos (.inr rfl), htop]
  · rw [State.readReg_loaded, if_neg (by simpa using hr)]

/-- Settles O54: the LOAD of `loadCommandRule` on a reset machine, whose registers are zero and whose latch is clear. -/
theorem bootState : Obligations.BootState := by
  intro cfg size p h2 h
  obtain ⟨t, ht, hsize, hmem, hsp, hfp, hregs, hfault⟩ := (loadCommandRule (State.launch cfg size) p).1 h2 h
  have hboot : t = State.boot cfg size p := (congrArg Prod.fst ht).symm
  refine ⟨t, hboot, hsp, hfp, fun r hnsp hnfp => ?_, hsize, hmem, hfault⟩
  rw [hregs r (by simp [hnsp, hnfp]), State.readReg_launch]

/-! ### REG_GET and REG_SET (R194, R195) -/

/-- REG_GET of a register (R194). -/
theorem State.command_regGet {s : State} {sel : RegSelector} {r : Reg} (h : sel.resolve = some r) :
    s.command (.regGet sel) = (s, .value (s.readReg r)) := by simp [State.command, h]

/-- REG_SET of a register (R195). -/
theorem State.command_regSet {s : State} {sel : RegSelector} {r : Reg} {v : Word} (h : sel.resolve = some r) :
    s.command (.regSet sel v) = (s.writeReg r v, .ok) := by simp [State.command, h]

/-- REG_GET of what names no register (R194). -/
theorem State.command_regGet_unknown {s : State} {sel : RegSelector} (h : sel.resolve = none) :
    s.command (.regGet sel) = (s, .error .unknownRegister) := by simp [State.command, h]

/-- REG_SET of what names no register (R195). -/
theorem State.command_regSet_unknown {s : State} {sel : RegSelector} {v : Word} (h : sel.resolve = none) :
    s.command (.regSet sel v) = (s, .error .unknownRegister) := by simp [State.command, h]

/-- Settles O56: name and index resolve to the same register, and any other selector to none. -/
theorem regGetSetRule : Obligations.RegGetSetRule := by
  refine ⟨fun s r v sel hsel => ?_, fun s v sel hsel => ?_⟩
  · have hr : sel.resolve = some r := by rcases hsel with rfl | rfl <;> simp
    exact ⟨State.command_regGet hr, _, State.command_regSet hr, by simp, s.writeReg_onlyChanges r v⟩
  · have hnone := RegSelector.resolve_eq_none hsel
    exact ⟨State.command_regGet_unknown hnone, State.command_regSet_unknown hnone⟩

/-! ### MEM_READ (R197) -/

/-- MEM_READ of a window inside memory (R197). -/
theorem State.command_memRead {s : State} {addr n : Nat} (h : addr + n ≤ s.size) :
    s.command (.memRead addr n) = (s, .bytes (s.window addr n)) := if_pos (State.inBounds_iff.mpr h)

/-- MEM_READ of a window that ends outside memory (R197). -/
theorem State.command_memRead_outside {s : State} {addr n : Nat} (h : s.size < addr + n) :
    s.command (.memRead addr n) = (s, .error (.outOfBounds none)) :=
  if_neg fun hin => absurd (State.inBounds_iff.mp hin) (Nat.not_le_of_lt h)

/-- Settles O57: the window has the length asked for and holds the byte of each of its addresses. -/
theorem memReadCommandRule : Obligations.MemReadCommandRule := fun s addr n =>
  ⟨fun h => ⟨_, State.command_memRead h, s.length_window n addr, fun _ => s.getElem?_window addr⟩,
    State.command_memRead_outside⟩

/-! ### The invariant (R190 to R198) -/

/-- The invariant says nothing of the registers. -/
theorem State.Inv.writeReg {s : State} (h : s.Inv) (r : Reg) (v : Word) : (s.writeReg r v).Inv :=
  ⟨h.memWf, h.memBelow, h.faultPlausible⟩

/-- The program LOAD installs is canonical and ends at the new MEMSIZE; the latch is the old one (R192). -/
theorem State.Inv.loaded {s : State} (hinv : s.Inv) {p : List Byte} (h2 : 2 ≤ p.length) (h : p.length ≤ 65535) :
    (s.loaded p).Inv := by
  have hend : 0 + p.length ≤ (s.loaded p).size := by rw [s.size_loaded h2 h, Nat.zero_add]
  exact ⟨Memory.wf_ofBytesAt 0 p, Memory.below_ofBytesAt 0 _ p hend, hinv.faultPlausible⟩

/-- RESET, accepted or refused, keeps the invariant (R191). -/
theorem State.Inv.resetCommand {s : State} (h : s.Inv) (n : Nat) : (s.resetCommand n).1.Inv := by
  rcases Nat.lt_or_ge 65535 n with hn | hn
  · rwa [s.resetCommand_refused hn]
  · rw [s.resetCommand_accepted hn]
    exact resetMeetsInv.1 s.config _

/-- LOAD, accepted or refused, keeps the invariant (R192). -/
theorem State.Inv.loadCommand {s : State} (h : s.Inv) (p : List Byte) : (s.loadCommand p).1.Inv := by
  by_cases hp : p.length < 2 ∨ 65535 < p.length
  · rwa [s.loadCommand_refused hp]
  · rw [s.loadCommand_accepted (by omega) (by omega)]
    exact h.loaded (by omega) (by omega)

/-- Settles O49: RESET and LOAD install a memory that fits the new MEMSIZE, STEP is `stepKeepsInv`, and the others
change a register at most. -/
theorem commandsKeepInv : Obligations.CommandsKeepInv := by
  intro s c hinv
  cases c with
  | reset n => exact hinv.resetCommand n
  | load p => exact hinv.loadCommand p
  | step =>
    obtain ⟨t, ht⟩ := stepAnswersNext s
    rw [State.command_step ht]
    exact stepKeepsInv s t hinv ht
  | nextEquals value => exact hinv
  | regGet sel =>
    cases hsel : sel.resolve with
    | none => rwa [State.command_regGet_unknown hsel]
    | some r => rwa [State.command_regGet hsel]
  | regSet sel value =>
    cases hsel : sel.resolve with
    | none => rwa [State.command_regSet_unknown hsel]
    | some r =>
      rw [State.command_regSet hsel]
      exact hinv.writeReg r value
  | memRead addr n =>
    rcases Nat.lt_or_ge s.size (addr + n) with hout | hin
    · rwa [State.command_memRead_outside hout]
    · rwa [State.command_memRead hin]

end Sys2Proof.Machine

/-! Exceptions (60_exceptions.md): the causes of a step's faults (R210, R66), when a step is safe (R215), the sticky latch
(R216), and the errors of host commands (R226). -/

namespace Sys2Proof.Machine

/-! ### Faults of a step -/

/-- An instruction leaves the latch clear exactly if its register operands are good and its access is inside memory. -/
theorem exec_fault_eq_none_iff {s t : State} {i : Instr} (hf : s.fault = none) (h : exec i s = .next t) :
    t.fault = none ↔ i.wellFormed = true ∧ s.AccessInBounds i := by
  constructor
  · intro ht
    rcases exec_completes_or_raises h with hgood | ⟨f, rfl⟩
    · exact hgood
    · cases ht
  · rintro ⟨hw, ha⟩
    obtain ⟨_, hlatch⟩ := (exec_complete_keeps hw ha h).1
    exact hlatch.trans hf

/-- Settles O20: cut off by the end of memory the step faults; else it executes the one instruction the bytes decode
to. -/
theorem stepIsSafeExactlyWhen : Obligations.StepIsSafeExactlyWhen := by
  intro s m h
  obtain ⟨t, ht⟩ := stepAnswersNext s
  refine ⟨t, ht, ?_⟩
  rcases Nat.lt_or_ge s.size (s.pc + m.length) with hout | hl
  · obtain ⟨u, hu, _, hfault, _⟩ := h.step_truncated hout rfl
    obtain rfl : t = u := Host.Outcome.next.inj (ht.symm.trans hu)
    simp [State.Safe, hfault, hout]
  · obtain ⟨rest, hdecode⟩ := State.decode_code h.select hl
    rw [h.step_eq hl] at ht
    rw [State.Safe, exec_fault_eq_none_iff h.unlatched ht]
    refine ⟨fun hgood => ⟨hl, fun i rest' hi => ?_⟩, fun hsafe => hsafe.2 _ rest hdecode⟩
    rw [hdecode] at hi
    cases hi
    exact hgood

/-- A push whose slot is not inside memory has its `sp` below 2 or its last byte at or above MEMSIZE (R170). -/
theorem State.pushSlot_outside {s : State} (h : ¬ (2 ≤ s.sp ∧ s.sp + 1 < s.size)) :
    s.sp < 2 ∨ s.size ≤ s.sp + 1 := by
  omega

/-- Settles O19: the fetch phase raises at `ip`, at an undefined opcode or at a missing operand; the instruction executed
raises for a register operand, or for its one access, which fixes the address and the kind. -/
theorem faultCauses : Obligations.FaultCauses := by
  intro s t f hf hstep ht
  rcases step_forms hf hstep with ⟨hout, rfl⟩ | ⟨_, _, _, rfl⟩ | ⟨_, hop, hstrict, rfl⟩ | ⟨m, hin, _, hl, rfl⟩ |
    ⟨m, hm, hl, he⟩
  · cases ht
    exact Nat.le_succ_of_le hout
  · rw [State.advance_fault, hf] at ht
    cases ht
  · cases ht
    exact ⟨rfl, hop, hstrict⟩
  · cases ht
    exact (missingOffset_bounds hin hl).2.2.2
  · obtain ⟨rest, hdecode⟩ := State.decode_code hm hl
    rcases (exec_latches hf he ht).2 with ⟨index, h12, hmem, rfl⟩ | ⟨_, ha, hfault⟩
    · exact ⟨h12, _, rest, hdecode, hmem⟩
    · generalize s.instrAt m = i at hdecode ha hfault
      cases i with
      | movRegMem src addr =>
        cases hfault
        exact ⟨Nat.le_of_not_lt ha, src, addr, rest, hdecode, rfl⟩
      | movMemReg addr dst =>
        cases hfault
        exact ⟨Nat.le_of_not_lt ha, addr, dst, rest, hdecode, rfl⟩
      | pshLit lit =>
        cases hfault
        exact ⟨rfl, State.pushSlot_outside ha, _, rest, hdecode, .inl rfl⟩
      | pshReg src =>
        cases hfault
        exact ⟨rfl, State.pushSlot_outside ha, _, rest, hdecode, .inr rfl⟩
      | pop dst =>
        cases hfault
        exact ⟨rfl, Nat.le_of_not_lt ha, dst, rest, hdecode⟩
      | _ => cases hfault

/-! ### The latch under the host's commands -/

/-- LOAD, accepted or refused, keeps the latch (R192, R216). -/
theorem State.loadCommand_fault (s : State) (p : List Byte) : (s.loadCommand p).1.fault = s.fault := by
  by_cases hp : p.length < 2 ∨ 65535 < p.length
  · rw [s.loadCommand_refused hp]
  · rw [s.loadCommand_accepted (by omega) (by omega)]
    rfl

/-- No command but RESET changes a latch that is set (R216). -/
theorem State.command_fault_of_latched {s : State} {f : Fault} {c : Command} (hf : s.fault = some f)
    (hreset : ∀ n, c ≠ .reset n) : (s.command c).1.fault = some f := by
  cases c with
  | reset n => exact absurd rfl (hreset n)
  | load p => exact (s.loadCommand_fault p).trans hf
  | step => rwa [State.command_step (step_latched hf)]
  | nextEquals value => exact hf
  | regGet sel =>
    cases hsel : sel.resolve with
    | none => rwa [State.command_regGet_unknown hsel]
    | some r => rwa [State.command_regGet hsel]
  | regSet sel value =>
    cases hsel : sel.resolve with
    | none => rwa [State.command_regSet_unknown hsel]
    | some r => rwa [State.command_regSet hsel]
  | memRead addr n =>
    rcases Nat.lt_or_ge s.size (addr + n) with hout | hin
    · rwa [State.command_memRead_outside hout]
    · rwa [State.command_memRead hin]

/-- Settles O21: a latched state steps to itself, and an accepted RESET leaves a launch state. -/
theorem latchIsSticky : Obligations.LatchIsSticky := by
  refine ⟨fun s f => step_latched, fun s f c => State.command_fault_of_latched, fun s n hn => ?_⟩
  rw [State.command, s.resetCommand_accepted hn, State.launch_fault]

/-! ### Errors of the host's commands -/

/-- What STEP reports is never an error of the command (R193, R226). -/
theorem State.report_ne_error (s : State) (e : CommandError) : s.report ≠ .error e := by
  cases hf : s.fault <;> simp [State.report, hf]

/-- A command that answers an error leaves the state as it was, and the command fixes the error (R226, R198 (b)). -/
theorem State.command_error {s t : State} {c : Command} {e : CommandError} (h : s.command c = (t, .error e)) :
    t = s ∧
    match c with
    | .reset n => e = .refusedReset n
    | .load p => e = .refusedLoad p.length
    | .step => False
    | .nextEquals _ => e = .outOfBounds (some (s.pc, .peek))
    | .regGet _ => e = .unknownRegister
    | .regSet _ _ => e = .unknownRegister
    | .memRead _ _ => e = .outOfBounds none := by
  cases c with
  | reset n =>
    rw [State.command] at h
    rcases Nat.lt_or_ge 65535 n with hn | hn
    · rw [s.resetCommand_refused hn] at h
      cases h
      exact ⟨rfl, rfl⟩
    · rw [s.resetCommand_accepted hn] at h
      cases h
  | load p =>
    rw [State.command] at h
    by_cases hp : p.length < 2 ∨ 65535 < p.length
    · rw [s.loadCommand_refused hp] at h
      cases h
      exact ⟨rfl, rfl⟩
    · rw [s.loadCommand_accepted (by omega) (by omega)] at h
      cases h
  | step =>
    obtain ⟨u, hu⟩ := stepAnswersNext s
    rw [State.command_step hu] at h
    exact absurd (congrArg Prod.snd h) (u.report_ne_error e)
  | nextEquals value =>
    rw [State.command] at h
    rcases Nat.lt_or_ge s.pc s.size with hin | hout
    · rw [State.nextEquals_inside hin] at h
      cases h
    · rw [State.nextEquals_outside hout] at h
      cases h
      exact ⟨rfl, rfl⟩
  | regGet sel =>
    cases hsel : sel.resolve with
    | none =>
      rw [State.command_regGet_unknown hsel] at h
      cases h
      exact ⟨rfl, rfl⟩
    | some r =>
      rw [State.command_regGet hsel] at h
      cases h
  | regSet sel value =>
    cases hsel : sel.resolve with
    | none =>
      rw [State.command_regSet_unknown hsel] at h
      cases h
      exact ⟨rfl, rfl⟩
    | some r =>
      rw [State.command_regSet hsel] at h
      cases h
  | memRead addr n =>
    rcases Nat.lt_or_ge s.size (addr + n) with hout | hin
    · rw [State.command_memRead_outside hout] at h
      cases h
      exact ⟨rfl, rfl⟩
    · rw [State.command_memRead hin] at h
      cases h

/-- Settles O59: each command's one error has the name, and so the code, of its fault; a refusal has some name's code. -/
theorem hostErrorsChangeNothing : Obligations.HostErrorsChangeNothing := by
  refine ⟨fun s t c e h => ?_, fun f => by cases f <;> rfl⟩
  obtain ⟨hkept, herror⟩ := State.command_error h
  refine ⟨hkept, ?_⟩
  cases c with
  | step => exact herror
  | reset n => exact e.code_cases
  | load p => exact e.code_cases
  | nextEquals value =>
    cases herror
    exact fun _ _ _ => ⟨rfl, rfl⟩
  | regGet sel =>
    cases herror
    exact fun _ _ => ⟨rfl, rfl⟩
  | regSet sel value =>
    cases herror
    exact fun _ _ => ⟨rfl, rfl⟩
  | memRead addr n =>
    cases herror
    exact fun _ _ _ => ⟨rfl, rfl⟩

end Sys2Proof.Machine

/-! The state after RESET (R37, R240). -/

namespace Sys2Proof.Machine

/-- Settles O46: no byte is listed after RESET, and an unlisted byte reads as zero. -/
theorem resetState : Obligations.ResetState := fun cfg size =>
  ⟨State.readReg_launch cfg size, Memory.read_nil, State.launch_memSize cfg size, State.launch_fault cfg size⟩

end Sys2Proof.Machine
